-- ==== Sys2Proof/Word.lean ====
section
/-! DEFINITION. The machine's data sizes: bytes, 16-bit words, and the two access widths (spec/00_scope.md R7, R9). -/

namespace Sys2Proof

/-- One byte of memory or of the instruction stream. -/
abbrev Byte := BitVec 8

/-- One 16-bit register value, address field or immediate. -/
abbrev Word := BitVec 16

/-- The width at which an operation reads, computes and writes: 8 or 16 bits (R7, R16). -/
inductive Width where
  | byte
  | word
deriving DecidableEq, Repr

end Sys2Proof
end

