-- ==== Sys2Proof/Syntax.lean ====
section
/-! DEFINITION. The instructions, one constructor per row of spec/opcode_table.json, with their operands; and the
register ids they name (spec/10_state.md R21, spec/30_encoding.md R75, R83). -/

namespace Sys2Proof

/-- A register id (10_state.md R21): an 8-bit half or a 16-bit register. The constructors stand in the order of the
ids 0..15. CS, DS, ES, SS and IP have no id, so no operand can name them. -/
inductive RegId where
  | al | cl | dl | bl | ah | ch | dh | bh
  | ax | cx | dx | bx | sp | bp | si | di
deriving DecidableEq, Repr

/-- The number of a register id (the first column of R21's table). -/
def RegId.id : RegId → Nat
  | .al => 0 | .cl => 1 | .dl => 2 | .bl => 3 | .ah => 4 | .ch => 5 | .dh => 6 | .bh => 7
  | .ax => 8 | .cx => 9 | .dx => 10 | .bx => 11 | .sp => 12 | .bp => 13 | .si => 14 | .di => 15

/-- `w(id)` (R22): ids 0..7 are 8-bit, ids 8..15 are 16-bit. -/
def RegId.width : RegId → Width
  | .al | .cl | .dl | .bl | .ah | .ch | .dh | .bh => .byte
  | .ax | .cx | .dx | .bx | .sp | .bp | .si | .di => .word

/-- An instruction, one constructor per row of spec/opcode_table.json. A register operand is a `RegId`, so a
register-id byte above 15 is no operand: the decoder refuses it (30_encoding.md R79). Operands stand in the order
of the encoding (R75): `d` is the destination register, `r` the other register, `idx` the index register, `base`
and `addr` the 16-bit address fields, `imm` the immediate, `disp` the displacement as encoded. -/
inductive Instr where
  /-- `MOV r,r` (R111) -/
  | movRR (d : RegId) (r : RegId)
  /-- `MOV r,imm` (R112) -/
  | movRI (d : RegId) (imm : Word)
  /-- `MOV r,[addr]` (R113) -/
  | movRM (d : RegId) (addr : Word)
  /-- `MOV r,[base+idx]` (R114) -/
  | movRX (d : RegId) (idx : RegId) (base : Word)
  /-- `MOV [addr],r` (R115) -/
  | movMR (r : RegId) (addr : Word)
  /-- `MOV [base+idx],r` (R116) -/
  | movXR (r : RegId) (idx : RegId) (base : Word)
  /-- `MOV [addr],imm8` (R117) -/
  | movMI (addr : Word) (imm : Byte)
  /-- `MOV [base+idx],imm8` (R118) -/
  | movXI (idx : RegId) (base : Word) (imm : Byte)
  /-- `NOP` (R119) -/
  | nop
  /-- `ADD r,r` (R132) -/
  | addRR (d : RegId) (r : RegId)
  /-- `ADD r,imm` (R133) -/
  | addRI (d : RegId) (imm : Word)
  /-- `ADD r,[addr]` (R134) -/
  | addRM (d : RegId) (addr : Word)
  /-- `ADD r,[base+idx]` (R135) -/
  | addRX (d : RegId) (idx : RegId) (base : Word)
  /-- `SUB r,r` (R136) -/
  | subRR (d : RegId) (r : RegId)
  /-- `SUB r,imm` (R137) -/
  | subRI (d : RegId) (imm : Word)
  /-- `SUB r,[addr]` (R138) -/
  | subRM (d : RegId) (addr : Word)
  /-- `SUB r,[base+idx]` (R139) -/
  | subRX (d : RegId) (idx : RegId) (base : Word)
  /-- `CMP r,r` (R140) -/
  | cmpRR (d : RegId) (r : RegId)
  /-- `CMP r,imm` (R141) -/
  | cmpRI (d : RegId) (imm : Word)
  /-- `CMP r,[addr]` (R142) -/
  | cmpRM (d : RegId) (addr : Word)
  /-- `CMP r,[base+idx]` (R143) -/
  | cmpRX (d : RegId) (idx : RegId) (base : Word)
  /-- `AND r,r` (R144) -/
  | andRR (d : RegId) (r : RegId)
  /-- `AND r,imm` (R145) -/
  | andRI (d : RegId) (imm : Word)
  /-- `AND r,[addr]` (R146) -/
  | andRM (d : RegId) (addr : Word)
  /-- `AND r,[base+idx]` (R147) -/
  | andRX (d : RegId) (idx : RegId) (base : Word)
  /-- `OR r,r` (R148) -/
  | orRR (d : RegId) (r : RegId)
  /-- `OR r,imm` (R149) -/
  | orRI (d : RegId) (imm : Word)
  /-- `OR r,[addr]` (R150) -/
  | orRM (d : RegId) (addr : Word)
  /-- `OR r,[base+idx]` (R151) -/
  | orRX (d : RegId) (idx : RegId) (base : Word)
  /-- `XOR r,r` (R152) -/
  | xorRR (d : RegId) (r : RegId)
  /-- `XOR r,imm` (R153) -/
  | xorRI (d : RegId) (imm : Word)
  /-- `XOR r,[addr]` (R154) -/
  | xorRM (d : RegId) (addr : Word)
  /-- `XOR r,[base+idx]` (R155) -/
  | xorRX (d : RegId) (idx : RegId) (base : Word)
  /-- `INC r` (R157) -/
  | incR (r : RegId)
  /-- `INC [addr]` (R160) -/
  | incM (addr : Word)
  /-- `INC [base+idx]` (R161) -/
  | incX (idx : RegId) (base : Word)
  /-- `DEC r` (R158) -/
  | decR (r : RegId)
  /-- `DEC [addr]` (R162) -/
  | decM (addr : Word)
  /-- `DEC [base+idx]` (R163) -/
  | decX (idx : RegId) (base : Word)
  /-- `NOT r` (R159) -/
  | notR (r : RegId)
  /-- `NOT [addr]` (R164) -/
  | notM (addr : Word)
  /-- `NOT [base+idx]` (R165) -/
  | notX (idx : RegId) (base : Word)
  /-- `MUL r` (R181) -/
  | mulR (r : RegId)
  /-- `MUL [addr]` (R183) -/
  | mulM (addr : Word)
  /-- `MUL [base+idx]` (R184) -/
  | mulX (idx : RegId) (base : Word)
  /-- `DIV r` (R182) -/
  | divR (r : RegId)
  /-- `DIV [addr]` (R185) -/
  | divM (addr : Word)
  /-- `DIV [base+idx]` (R186) -/
  | divX (idx : RegId) (base : Word)
  /-- `JMP rel16` (R202) -/
  | jmp (disp : Word)
  /-- `JE rel8`, also spelled JZ (R204) -/
  | je (disp : Byte)
  /-- `JNE rel8`, also spelled JNZ (R205) -/
  | jne (disp : Byte)
  /-- `JL rel8`, also spelled JNGE (R206) -/
  | jl (disp : Byte)
  /-- `JLE rel8`, also spelled JNG (R207) -/
  | jle (disp : Byte)
  /-- `JG rel8`, also spelled JNLE (R208) -/
  | jg (disp : Byte)
  /-- `JGE rel8`, also spelled JNL (R209) -/
  | jge (disp : Byte)
  /-- `JB rel8`, also spelled JNAE, JC (R210) -/
  | jb (disp : Byte)
  /-- `JAE rel8`, also spelled JNB, JNC (R211) -/
  | jae (disp : Byte)
  /-- `JBE rel8`, also spelled JNA (R212) -/
  | jbe (disp : Byte)
  /-- `JA rel8`, also spelled JNBE (R213) -/
  | ja (disp : Byte)
  /-- `LOOP rel8` (R214) -/
  | loop (disp : Byte)
  /-- `HLT` (R220) -/
  | hlt
  /-- `RET` (R221) -/
  | ret
  /-- `INT imm8` (R222) -/
  | int (n : Byte)
deriving DecidableEq, Repr

end Sys2Proof
end

