-- ==== Sys2Proof/WellFormed.lean ====
section
/-! DEFINITION. What makes an instruction well formed (spec/30_encoding.md R76, R79, R87). The only thing an operand
field can get wrong is a register-id byte above 15; the type `RegId` holds the sixteen ids and nothing else, so the
check on an instruction is that each register it names passes the check on bytes. The decoder uses the byte check. -/

namespace Sys2Proof

/-- R79: a `reg` or `idx` byte names a register exactly when it is 0..15. -/
def regIdByteOk (b : Byte) : Bool := decide (b.toNat ≤ 15)

/-- The registers an instruction names, in the order of its encoding. -/
def Instr.regIds : Instr → List RegId
  | .movRR d r => [d, r]
  | .movRI d _ => [d]
  | .movRM d _ => [d]
  | .movRX d idx _ => [d, idx]
  | .movMR r _ => [r]
  | .movXR r idx _ => [r, idx]
  | .movMI _ _ => []
  | .movXI idx _ _ => [idx]
  | .nop => []
  | .addRR d r => [d, r]
  | .addRI d _ => [d]
  | .addRM d _ => [d]
  | .addRX d idx _ => [d, idx]
  | .subRR d r => [d, r]
  | .subRI d _ => [d]
  | .subRM d _ => [d]
  | .subRX d idx _ => [d, idx]
  | .cmpRR d r => [d, r]
  | .cmpRI d _ => [d]
  | .cmpRM d _ => [d]
  | .cmpRX d idx _ => [d, idx]
  | .andRR d r => [d, r]
  | .andRI d _ => [d]
  | .andRM d _ => [d]
  | .andRX d idx _ => [d, idx]
  | .orRR d r => [d, r]
  | .orRI d _ => [d]
  | .orRM d _ => [d]
  | .orRX d idx _ => [d, idx]
  | .xorRR d r => [d, r]
  | .xorRI d _ => [d]
  | .xorRM d _ => [d]
  | .xorRX d idx _ => [d, idx]
  | .incR r => [r]
  | .incM _ => []
  | .incX idx _ => [idx]
  | .decR r => [r]
  | .decM _ => []
  | .decX idx _ => [idx]
  | .notR r => [r]
  | .notM _ => []
  | .notX idx _ => [idx]
  | .mulR r => [r]
  | .mulM _ => []
  | .mulX idx _ => [idx]
  | .divR r => [r]
  | .divM _ => []
  | .divX idx _ => [idx]
  | .jmp _ => []
  | .je _ => []
  | .jne _ => []
  | .jl _ => []
  | .jle _ => []
  | .jg _ => []
  | .jge _ => []
  | .jb _ => []
  | .jae _ => []
  | .jbe _ => []
  | .ja _ => []
  | .loop _ => []
  | .hlt => []
  | .ret => []
  | .int _ => []

/-- An instruction is well formed when every register it names is written as a byte that names a register. -/
def Instr.wellFormed (i : Instr) : Bool :=
  i.regIds.all fun r => regIdByteOk (BitVec.ofNat 8 r.id)

end Sys2Proof
end

