-- ==== Sys2Proof/Decode.lean ====
section
/-! DEFINITION. Instruction encoding and decode (spec/30_encoding.md R70 to R87): the byte and word helpers of the
encoding, the decoder, total on any bytes and rejecting by name, and the encoder. -/

namespace Sys2Proof

/-! ### Bytes and words -/

/-- Bits 7..0 of a word. -/
def lowByte (w : Word) : Byte := w.extractLsb' 0 8

/-- Bits 15..8 of a word. -/
def highByte (w : Word) : Byte := w.extractLsb' 8 8

/-- `lo | (hi << 8)`: a 16-bit field is stored low byte first (R75, 20_memory.md R54). -/
def wordOf (lo hi : Byte) : Word := hi ++ lo

/-- The number of bits of a width (00_scope.md R7). -/
def Width.bits : Width → Nat
  | .byte => 8
  | .word => 16

/-- The number of bytes of a width, `w/8`. -/
def Width.bytes : Width → Nat
  | .byte => 1
  | .word => 2

/-- `mask(w) = 2^w - 1` for a width of `bits` bits (00_scope.md R9). -/
def maskOf (bits : Nat) : Nat := 2 ^ bits - 1

/-! ### Formats -/

/-- The instruction formats of R75. -/
inductive Format where
  | N | RR | RI | RM | RX | MI | XI | R | M | X | J8 | J16 | I8
deriving DecidableEq, Repr

/-- The length in bytes of a format (R75). -/
def formatLength : Format → Nat
  | .N => 1
  | .RR | .R | .J8 | .I8 => 2
  | .M | .J16 => 3
  | .RI | .RM | .MI | .X => 4
  | .RX | .XI => 5

/-- The format of an instruction (the map of R83). -/
def instrFormat : Instr → Format
  | .nop | .hlt | .ret => .N
  | .movRR _ _ | .addRR _ _ | .subRR _ _ | .cmpRR _ _ | .andRR _ _ | .orRR _ _ | .xorRR _ _ => .RR
  | .movRI _ _ | .addRI _ _ | .subRI _ _ | .cmpRI _ _ | .andRI _ _ | .orRI _ _ | .xorRI _ _ => .RI
  | .movRM _ _ | .movMR _ _ | .addRM _ _ | .subRM _ _ | .cmpRM _ _ | .andRM _ _ | .orRM _ _
  | .xorRM _ _ => .RM
  | .movRX _ _ _ | .movXR _ _ _ | .addRX _ _ _ | .subRX _ _ _ | .cmpRX _ _ _ | .andRX _ _ _ | .orRX _ _ _
  | .xorRX _ _ _ => .RX
  | .movMI _ _ => .MI
  | .movXI _ _ _ => .XI
  | .incR _ | .decR _ | .notR _ | .mulR _ | .divR _ => .R
  | .incM _ | .decM _ | .notM _ | .mulM _ | .divM _ => .M
  | .incX _ _ | .decX _ _ | .notX _ _ | .mulX _ _ | .divX _ _ => .X
  | .je _ | .jne _ | .jl _ | .jle _ | .jg _ | .jge _ | .jb _ | .jae _ | .jbe _ | .ja _ | .loop _ => .J8
  | .jmp _ => .J16
  | .int _ => .I8

/-- The encoded length `L` of an instruction, 1 to 5 bytes (R73). -/
def instrLength (i : Instr) : Nat := formatLength (instrFormat i)

/-! ### Register-id fields -/

/-- The register with the id `n`: a nibble of an `RR` byte, or a `reg` or `idx` byte that is at most 15 (R76). -/
def regIdOfNibble (n : BitVec 4) : RegId :=
  match n.toNat with
  | 0 => .al | 1 => .cl | 2 => .dl | 3 => .bl | 4 => .ah | 5 => .ch | 6 => .dh | 7 => .bh
  | 8 => .ax | 9 => .cx | 10 => .dx | 11 => .bx | 12 => .sp | 13 => .bp | 14 => .si | _ => .di

/-- The byte that names a register. -/
def regIdByte (r : RegId) : Byte := BitVec.ofNat 8 r.id

/-- The `RR` packed byte `(dst << 4) | src` (R77). -/
def packRR (d r : RegId) : Byte := BitVec.ofNat 4 d.id ++ BitVec.ofNat 4 r.id

/-! ### The decoder -/

/-- Why bytes are no instruction. -/
inductive DecodeError where
  /-- the bytes end before the instruction does (a fetch beyond 0xFFFF, R71) -/
  | truncated
  /-- the opcode byte is not a row of the opcode map (R85) -/
  | unassigned (op : Byte)
  /-- a `reg` or `idx` byte above 15 (R79) -/
  | badRegId (b : Byte)
deriving DecidableEq, Repr

/-- What a decoder answers: the instruction and the bytes after it, or why there is none. -/
abbrev Decoded := Except DecodeError (Instr × List Byte)

/-- R79: a register-id byte above 15 is rejected, after all of the instruction's bytes are there. -/
def withRegId (b : Byte) (k : RegId → Decoded) : Decoded :=
  if regIdByteOk b then k (regIdOfNibble (b.extractLsb' 0 4)) else .error (.badRegId b)

/-- Format `RR`: `dst` in bits 7..4, `src` in bits 3..0 of byte 1. -/
def parseRR (mk : RegId → RegId → Instr) : List Byte → Decoded
  | b :: rest => .ok (mk (regIdOfNibble (b.extractLsb' 4 4)) (regIdOfNibble (b.extractLsb' 0 4)), rest)
  | _ => .error .truncated

/-- Formats `RI` and `RM`: a register byte, then a 16-bit field. -/
def parseRegWord (mk : RegId → Word → Instr) : List Byte → Decoded
  | b :: lo :: hi :: rest => withRegId b fun r => .ok (mk r (wordOf lo hi), rest)
  | _ => .error .truncated

/-- Format `RI`. -/
def parseRI (mk : RegId → Word → Instr) (bs : List Byte) : Decoded := parseRegWord mk bs

/-- Format `RM`. -/
def parseRM (mk : RegId → Word → Instr) (bs : List Byte) : Decoded := parseRegWord mk bs

/-- Format `RX`: a register byte, an index byte, a 16-bit base. -/
def parseRX (mk : RegId → RegId → Word → Instr) : List Byte → Decoded
  | b :: x :: lo :: hi :: rest =>
    withRegId b fun r => withRegId x fun idx => .ok (mk r idx (wordOf lo hi), rest)
  | _ => .error .truncated

/-- Format `MI`: a 16-bit address, an 8-bit immediate. -/
def parseMI (mk : Word → Byte → Instr) : List Byte → Decoded
  | lo :: hi :: imm :: rest => .ok (mk (wordOf lo hi) imm, rest)
  | _ => .error .truncated

/-- Format `XI`: an index byte, a 16-bit base, an 8-bit immediate. -/
def parseXI (mk : RegId → Word → Byte → Instr) : List Byte → Decoded
  | x :: lo :: hi :: imm :: rest => withRegId x fun idx => .ok (mk idx (wordOf lo hi) imm, rest)
  | _ => .error .truncated

/-- Format `R`: a register byte. -/
def parseR (mk : RegId → Instr) : List Byte → Decoded
  | b :: rest => withRegId b fun r => .ok (mk r, rest)
  | _ => .error .truncated

/-- Format `M`: a 16-bit address. -/
def parseM (mk : Word → Instr) : List Byte → Decoded
  | lo :: hi :: rest => .ok (mk (wordOf lo hi), rest)
  | _ => .error .truncated

/-- Format `X`: an index byte, a 16-bit base. -/
def parseX (mk : RegId → Word → Instr) (bs : List Byte) : Decoded := parseRegWord mk bs

/-- Format `J8`: an 8-bit displacement. -/
def parseJ8 (mk : Byte → Instr) : List Byte → Decoded
  | disp :: rest => .ok (mk disp, rest)
  | _ => .error .truncated

/-- Format `J16`: a 16-bit displacement. -/
def parseJ16 (mk : Word → Instr) (bs : List Byte) : Decoded := parseM mk bs

/-- Format `I8`: an 8-bit immediate. -/
def parseI8 (mk : Byte → Instr) (bs : List Byte) : Decoded := parseJ8 mk bs

/-- Decode the bytes from an opcode on, by the opcode map of R83. The opcode byte alone fixes the format (R73).
What is wrong is reported in the order of 60_exceptions.md R245: opcode, operand bytes, register ids. -/
def decode : List Byte → Decoded
  | [] => .error .truncated
  | op :: bs =>
    match op.toNat with
    | 0x0A => parseRR .orRR bs
    | 0x0B => parseRI .orRI bs
    | 0x0C => parseRM .orRM bs
    | 0x0D => parseRX .orRX bs
    | 0x10 => parseRR .movRR bs
    | 0x11 => parseRI .movRI bs
    | 0x20 => parseRR .addRR bs
    | 0x21 => parseRI .addRI bs
    | 0x22 => parseRR .andRR bs
    | 0x23 => parseRI .andRI bs
    | 0x24 => parseRM .addRM bs
    | 0x25 => parseRX .addRX bs
    | 0x26 => parseRM .andRM bs
    | 0x27 => parseRX .andRX bs
    | 0x30 => parseRR .subRR bs
    | 0x31 => parseRI .subRI bs
    | 0x32 => parseRR .xorRR bs
    | 0x33 => parseRI .xorRI bs
    | 0x34 => parseRM .subRM bs
    | 0x35 => parseRX .subRX bs
    | 0x36 => parseRM .xorRM bs
    | 0x37 => parseRX .xorRX bs
    | 0x38 => parseRR .cmpRR bs
    | 0x39 => parseRI .cmpRI bs
    | 0x3A => parseRM .cmpRM bs
    | 0x3B => parseRX .cmpRX bs
    | 0x40 => parseR .incR bs
    | 0x41 => parseR .decR bs
    | 0x72 => parseJ8 .jb bs
    | 0x73 => parseJ8 .jae bs
    | 0x74 => parseJ8 .je bs
    | 0x75 => parseJ8 .jne bs
    | 0x76 => parseJ8 .jbe bs
    | 0x77 => parseJ8 .ja bs
    | 0x7C => parseJ8 .jl bs
    | 0x7D => parseJ8 .jge bs
    | 0x7E => parseJ8 .jle bs
    | 0x7F => parseJ8 .jg bs
    | 0x88 => parseRX .movXR bs
    | 0x89 => parseRM .movMR bs
    | 0x8A => parseRX .movRX bs
    | 0x8B => parseRM .movRM bs
    | 0x90 => .ok (.nop, bs)
    | 0xA4 => parseM .incM bs
    | 0xA5 => parseX .incX bs
    | 0xA6 => parseM .decM bs
    | 0xA7 => parseX .decX bs
    | 0xA8 => parseM .notM bs
    | 0xA9 => parseX .notX bs
    | 0xAA => parseM .mulM bs
    | 0xAB => parseX .mulX bs
    | 0xAC => parseM .divM bs
    | 0xAD => parseX .divX bs
    | 0xC3 => .ok (.ret, bs)
    | 0xC6 => parseMI .movMI bs
    | 0xC7 => parseXI .movXI bs
    | 0xCD => parseI8 .int bs
    | 0xE2 => parseJ8 .loop bs
    | 0xE9 => parseJ16 .jmp bs
    | 0xF4 => .ok (.hlt, bs)
    | 0xF6 => parseR .mulR bs
    | 0xF7 => parseR .divR bs
    | 0xF8 => parseR .notR bs
    | _ => .error (.unassigned op)

/-- The 5 bytes (the longest instruction) of an instruction whose bits are `w`, byte k being bits 8k+7..8k, every
bit from `nbits` on zero. -/
def tableWordBytes (nbits w : Nat) : List Byte :=
  let v := w % 2 ^ nbits
  [BitVec.ofNat 8 v, BitVec.ofNat 8 (v / 2 ^ 8), BitVec.ofNat 8 (v / 2 ^ 16), BitVec.ofNat 8 (v / 2 ^ 24),
    BitVec.ofNat 8 (v / 2 ^ 32)]

/-- The instruction the decoder reads from an instruction whose bits are `w`, numbered as spec/opcode_table.json
numbers them. -/
def decodeTableWord (nbits w : Nat) : Option Instr :=
  match decode (tableWordBytes nbits w) with
  | .ok (i, _) => some i
  | .error _ => none

/-! ### The encoder -/

/-- The bytes of an instruction, in the layouts of R75 with the opcode bytes of R83. -/
def encode : Instr → List Byte
  | .movRR d r => [0x10#8, packRR d r]
  | .movRI d imm => [0x11#8, regIdByte d, lowByte imm, highByte imm]
  | .movRM d addr => [0x8B#8, regIdByte d, lowByte addr, highByte addr]
  | .movRX d idx base => [0x8A#8, regIdByte d, regIdByte idx, lowByte base, highByte base]
  | .movMR r addr => [0x89#8, regIdByte r, lowByte addr, highByte addr]
  | .movXR r idx base => [0x88#8, regIdByte r, regIdByte idx, lowByte base, highByte base]
  | .movMI addr imm => [0xC6#8, lowByte addr, highByte addr, imm]
  | .movXI idx base imm => [0xC7#8, regIdByte idx, lowByte base, highByte base, imm]
  | .nop => [0x90#8]
  | .addRR d r => [0x20#8, packRR d r]
  | .addRI d imm => [0x21#8, regIdByte d, lowByte imm, highByte imm]
  | .addRM d addr => [0x24#8, regIdByte d, lowByte addr, highByte addr]
  | .addRX d idx base => [0x25#8, regIdByte d, regIdByte idx, lowByte base, highByte base]
  | .subRR d r => [0x30#8, packRR d r]
  | .subRI d imm => [0x31#8, regIdByte d, lowByte imm, highByte imm]
  | .subRM d addr => [0x34#8, regIdByte d, lowByte addr, highByte addr]
  | .subRX d idx base => [0x35#8, regIdByte d, regIdByte idx, lowByte base, highByte base]
  | .cmpRR d r => [0x38#8, packRR d r]
  | .cmpRI d imm => [0x39#8, regIdByte d, lowByte imm, highByte imm]
  | .cmpRM d addr => [0x3A#8, regIdByte d, lowByte addr, highByte addr]
  | .cmpRX d idx base => [0x3B#8, regIdByte d, regIdByte idx, lowByte base, highByte base]
  | .andRR d r => [0x22#8, packRR d r]
  | .andRI d imm => [0x23#8, regIdByte d, lowByte imm, highByte imm]
  | .andRM d addr => [0x26#8, regIdByte d, lowByte addr, highByte addr]
  | .andRX d idx base => [0x27#8, regIdByte d, regIdByte idx, lowByte base, highByte base]
  | .orRR d r => [0x0A#8, packRR d r]
  | .orRI d imm => [0x0B#8, regIdByte d, lowByte imm, highByte imm]
  | .orRM d addr => [0x0C#8, regIdByte d, lowByte addr, highByte addr]
  | .orRX d idx base => [0x0D#8, regIdByte d, regIdByte idx, lowByte base, highByte base]
  | .xorRR d r => [0x32#8, packRR d r]
  | .xorRI d imm => [0x33#8, regIdByte d, lowByte imm, highByte imm]
  | .xorRM d addr => [0x36#8, regIdByte d, lowByte addr, highByte addr]
  | .xorRX d idx base => [0x37#8, regIdByte d, regIdByte idx, lowByte base, highByte base]
  | .incR r => [0x40#8, regIdByte r]
  | .incM addr => [0xA4#8, lowByte addr, highByte addr]
  | .incX idx base => [0xA5#8, regIdByte idx, lowByte base, highByte base]
  | .decR r => [0x41#8, regIdByte r]
  | .decM addr => [0xA6#8, lowByte addr, highByte addr]
  | .decX idx base => [0xA7#8, regIdByte idx, lowByte base, highByte base]
  | .notR r => [0xF8#8, regIdByte r]
  | .notM addr => [0xA8#8, lowByte addr, highByte addr]
  | .notX idx base => [0xA9#8, regIdByte idx, lowByte base, highByte base]
  | .mulR r => [0xF6#8, regIdByte r]
  | .mulM addr => [0xAA#8, lowByte addr, highByte addr]
  | .mulX idx base => [0xAB#8, regIdByte idx, lowByte base, highByte base]
  | .divR r => [0xF7#8, regIdByte r]
  | .divM addr => [0xAC#8, lowByte addr, highByte addr]
  | .divX idx base => [0xAD#8, regIdByte idx, lowByte base, highByte base]
  | .jmp disp => [0xE9#8, lowByte disp, highByte disp]
  | .je disp => [0x74#8, disp]
  | .jne disp => [0x75#8, disp]
  | .jl disp => [0x7C#8, disp]
  | .jle disp => [0x7E#8, disp]
  | .jg disp => [0x7F#8, disp]
  | .jge disp => [0x7D#8, disp]
  | .jb disp => [0x72#8, disp]
  | .jae disp => [0x73#8, disp]
  | .jbe disp => [0x76#8, disp]
  | .ja disp => [0x77#8, disp]
  | .loop disp => [0xE2#8, disp]
  | .hlt => [0xF4#8]
  | .ret => [0xC3#8]
  | .int n => [0xCD#8, n]

end Sys2Proof
end

