-- ==== Sys2Proof/Config.lean ====
section
/-! DEFINITION. What the spec leaves to an implementation (the named parameters of spec/00_scope.md R8) and
the two free draws. The parameters are plain data, carried by the state so that every claim about "every state" is
a claim about every setting; the free draws are opaque, so that no proof can learn their value. -/

namespace Sys2Proof

/-- `UNKNOWN_OPCODE_POLICY` (R8, R85): what an unassigned opcode byte does. -/
inductive UnknownOpcodePolicy where
  /-- it raises `UnknownOpcode` (the spec's default) -/
  | fault
  /-- it is a 1-byte no-op -/
  | nop
deriving DecidableEq, Repr

/-- `MUL_FLAG_WIDTH` (R8, R181): the width at which MUL's flags are computed from its product. -/
inductive MulFlagWidth where
  /-- the operand width w (the spec's default) -/
  | operand
  /-- the product width 2w -/
  | product
deriving DecidableEq, Repr

/-- The named parameters of R8 that are fixed for a machine. `IMAGE`, the remaining one, is the argument of
`Sys2Proof.Machine.loadImage`. -/
structure Config where
  /-- `UNKNOWN_OPCODE_POLICY` -/
  unknownOpcode : UnknownOpcodePolicy
  /-- `MUL_FLAG_WIDTH` -/
  mulFlagWidth : MulFlagWidth
  /-- `ENTRY`, the address at which `load` starts execution -/
  entry : Word
deriving DecidableEq, Repr

/-- The defaults R8 states: `Fault`, `Operand` and 0x100. -/
def Config.standard : Config :=
  { unknownOpcode := .fault, mulFlagWidth := .operand, entry := 0x100#16 }

/-- The draw `divFlags` (R8, R182): the values ZF, SF and CF take after the n-th draw of the run. A FREE VALUE
(notes/assumptions/1.md): the spec gives no value, and nothing in Lean can evaluate one. -/
opaque Config.divFlags : Nat → Bool × Bool × Bool

/-- The `any` of R243(d): the IP of the faulted state when a divide fault's instruction ends at 0x10000, at the
n-th draw of the run. A FREE VALUE (notes/assumptions/2.md). -/
opaque Config.faultedIp : Nat → Word

end Sys2Proof
end

