-- ==== Sys2Proof/Machine/State.lean ====
section
/-! DEFINITION. The machine's state as plain data (spec/10_state.md R20 to R37), the reasons a step can stop, and the
state after reset (spec/70_reset_and_hazards.md R270, R271). -/

namespace Sys2Proof.Machine

/-- The eight 16-bit registers that have a register id (R20, R21). The 8-bit halves are views of AX, BX, CX and DX. -/
structure Regs where
  ax : Word
  bx : Word
  cx : Word
  dx : Word
  sp : Word
  bp : Word
  si : Word
  di : Word
deriving DecidableEq, Repr

/-- The segment registers: dead state that no instruction reads or writes (R26). -/
structure SegRegs where
  cs : Word
  ds : Word
  es : Word
  ss : Word
deriving DecidableEq, Repr

/-- The nine flags, separate booleans (R29). Only ZF, SF and CF are ever written (R30); OF is read by the signed
jumps (R32); PF, AF, TF, IF and DF are inert (R33). `ovf` is OF and `ief` is IF: those two names are Lean's own. -/
structure Flags where
  cf : Bool
  pf : Bool
  af : Bool
  zf : Bool
  sf : Bool
  tf : Bool
  ief : Bool
  df : Bool
  ovf : Bool
deriving DecidableEq, Repr

/-- The five run-time faults (60_exceptions.md R240, R241). -/
inductive FaultCode where
  /-- code 1: an instruction byte beyond 0xFFFF, or a next IP outside 0..0xFFFF -/
  | ipOutOfBounds
  /-- code 2: a data access with a byte above 0xFFFF -/
  | memoryOutOfBounds
  /-- code 3: divisor 0 -/
  | divideByZero
  /-- code 4: a quotient that does not fit -/
  | divideOverflow
  /-- code 5: an unassigned opcode under the policy `Fault`, or a register-id byte above 15 -/
  | unknownOpcode
deriving DecidableEq, Repr

/-- Memory as a list of (address, byte) pairs: addresses strictly rising, no entry 0x00. An address that is not
listed reads as 0x00, which is what every byte of memory holds after `new_state` (70_reset_and_hazards.md R271). -/
abbrev Memory := List Host.Cell

/-- The whole state of the machine. -/
structure State where
  /-- AX, BX, CX, DX, SP, BP, SI, DI (R20) -/
  regs : Regs
  /-- CS, DS, ES, SS (R26) -/
  segs : SegRegs
  /-- the instruction pointer (R27): between steps, the address of the next instruction's opcode byte -/
  ip : Word
  /-- the flags (R29) -/
  flags : Flags
  /-- the 65,536 bytes of memory (20_memory.md R50) -/
  mem : Memory
  /-- set by HLT; terminal (R36(a)) -/
  halted : Bool
  /-- set when a step faults; terminal (R36(b)) -/
  fault : Option FaultCode
  /-- the `output` result of the step that led here: a byte string, or none (00_scope.md R13, 44_system.md R226) -/
  output : Option (List Byte)
  /-- the named parameters of 00_scope.md R8, fixed for a machine; no step changes them -/
  config : Config
  /-- the MODEL's own field: how many free draws have been taken (notes/assumptions/3.md) -/
  draws : Nat
deriving DecidableEq, Repr

/-- Why there is no step. Both are the terminal states of 70_reset_and_hazards.md R273; the five faults of R241 are
no reasons of this type, because the step that raises one has a next state, the faulted state of R243. -/
inductive Fault where
  /-- Raised by `step` on a halted state, which has no step (R273). Safe: the spec defines no behaviour here. -/
  | stepWhenHalted
  /-- Raised by `step` on a faulted state, which has no step (60_exceptions.md R244). Safe: the spec defines no
  behaviour here. -/
  | stepWhenFaulted (code : FaultCode)
deriving DecidableEq, Repr

/-- Why an instruction has no meaning in the model. -/
inductive Refusal where
  /-- Raised by an arm of `exec` whose instruction is not modelled; no arm is left that does. Safe: nothing is
  claimed of such an instruction. -/
  | notModelled (mnemonic : String)
deriving DecidableEq, Repr

/-- All nine flags false: their values after `new_state` (R37, R271). -/
def Flags.clear : Flags :=
  { cf := false, pf := false, af := false, zf := false, sf := false, tf := false, ief := false, df := false,
    ovf := false }

/-- The machine right after reset with nothing loaded, that is `new_state()` (70_reset_and_hazards.md R271): every
register 0 but SP = 0xFFFE and IP = 0x100, every flag false, all memory bytes zero, not halted, no fault; the
parameters at the defaults of 00_scope.md R8. A program comes in by `load` (`loadImage`, notes/assumptions/6.md). -/
def State.reset : State :=
  { regs := { ax := 0, bx := 0, cx := 0, dx := 0, sp := 0xFFFE#16, bp := 0, si := 0, di := 0 }
    segs := { cs := 0, ds := 0, es := 0, ss := 0 }
    ip := 0x100#16
    flags := Flags.clear
    mem := []
    halted := false
    fault := none
    output := none
    config := Config.standard
    draws := 0 }

end Sys2Proof.Machine
end

