-- ==== Sys2Proof/Machine/Flags.lean ====
section
/-! DEFINITION. The flag computation (spec/10_state.md R31), and the conditions the jumps read
(spec/43_control.md R203). -/

namespace Sys2Proof.Machine

/-- `SetFlags(raw, w)` (R31) at a width of `bits` bits: ZF, SF and CF from the unbounded raw result; the other six
flags are not written (R30). -/
def setFlags (f : Flags) (raw : Int) (bits : Nat) : Flags :=
  let r := (raw % (2 ^ bits : Nat)).toNat
  { f with
    zf := decide (r = 0)
    sf := decide (r &&& 2 ^ (bits - 1) ≠ 0)
    cf := decide (raw > maskOf bits ∨ raw < 0) }

/-- ZF, SF and CF take three given values (42_mul_div.md R182: the draw after a DIV). -/
def assignFlags (f : Flags) (v : Bool × Bool × Bool) : Flags :=
  { f with zf := v.1, sf := v.2.1, cf := v.2.2 }

/-- The conditions of the conditional jumps. -/
inductive Cond where
  | e | ne | l | le | g | ge | b | be | a | ae
deriving DecidableEq, Repr

/-- The source's condition of each conditional jump, OF read from the state (R203). -/
def condHolds (f : Flags) : Cond → Bool
  | .e => f.zf
  | .ne => !f.zf
  | .l => f.sf != f.ovf
  | .le => f.zf || (f.sf != f.ovf)
  | .g => !f.zf && (f.sf == f.ovf)
  | .ge => f.sf == f.ovf
  | .b => f.cf
  | .be => f.cf || f.zf
  | .a => !f.cf && !f.zf
  | .ae => !f.cf

end Sys2Proof.Machine
end

