-- ==== Sys2Proof/Machine/Ops.lean ====
section
/-! DEFINITION. The named operations over registers and memory, taking a fault, and the end of a step. Every
instruction's meaning is built from these. -/

namespace Sys2Proof.Machine

/-- What a meaning answers. -/
abbrev Result := Host.Outcome State Fault Refusal

/-! ### Registers (spec/10_state.md R21 to R23) -/

/-- `word` with bits 7..0 replaced. -/
def withLow (w : Word) (b : Byte) : Word := highByte w ++ b

/-- `word` with bits 15..8 replaced. -/
def withHigh (w : Word) (b : Byte) : Word := b ++ lowByte w

/-- `x[id]` on the register record (R22): a natural number in range for the register's width. -/
def readReg (g : Regs) : RegId → Nat
  | .al => (lowByte g.ax).toNat
  | .cl => (lowByte g.cx).toNat
  | .dl => (lowByte g.dx).toNat
  | .bl => (lowByte g.bx).toNat
  | .ah => (highByte g.ax).toNat
  | .ch => (highByte g.cx).toNat
  | .dh => (highByte g.dx).toNat
  | .bh => (highByte g.bx).toNat
  | .ax => g.ax.toNat
  | .cx => g.cx.toNat
  | .dx => g.dx.toNat
  | .bx => g.bx.toNat
  | .sp => g.sp.toNat
  | .bp => g.bp.toNat
  | .si => g.si.toNat
  | .di => g.di.toNat

/-- `x[id] <- v` on the register record (R23): `v`, any integer, is truncated to the register's width in two's
complement; a write to an 8-bit half keeps the other half. -/
def writeReg (g : Regs) (r : RegId) (v : Int) : Regs :=
  match r with
  | .al => { g with ax := withLow g.ax (BitVec.ofInt 8 v) }
  | .cl => { g with cx := withLow g.cx (BitVec.ofInt 8 v) }
  | .dl => { g with dx := withLow g.dx (BitVec.ofInt 8 v) }
  | .bl => { g with bx := withLow g.bx (BitVec.ofInt 8 v) }
  | .ah => { g with ax := withHigh g.ax (BitVec.ofInt 8 v) }
  | .ch => { g with cx := withHigh g.cx (BitVec.ofInt 8 v) }
  | .dh => { g with dx := withHigh g.dx (BitVec.ofInt 8 v) }
  | .bh => { g with bx := withHigh g.bx (BitVec.ofInt 8 v) }
  | .ax => { g with ax := BitVec.ofInt 16 v }
  | .cx => { g with cx := BitVec.ofInt 16 v }
  | .dx => { g with dx := BitVec.ofInt 16 v }
  | .bx => { g with bx := BitVec.ofInt 16 v }
  | .sp => { g with sp := BitVec.ofInt 16 v }
  | .bp => { g with bp := BitVec.ofInt 16 v }
  | .si => { g with si := BitVec.ofInt 16 v }
  | .di => { g with di := BitVec.ofInt 16 v }

/-- `x[id]` (R22). -/
def State.reg (s : State) (r : RegId) : Nat := readReg s.regs r

/-- `x[id] <- v` (R23). -/
def State.setReg (s : State) (r : RegId) (v : Int) : State := { s with regs := writeReg s.regs r v }

/-- `SetFlags(raw, w)` on the state (R31). -/
def State.setFlags (s : State) (raw : Int) (bits : Nat) : State :=
  { s with flags := Sys2Proof.Machine.setFlags s.flags raw bits }

/-! ### Memory (spec/20_memory.md R50 to R58) -/

/-- The byte at an address: the listed byte, or 0x00 where none is listed (70_reset_and_hazards.md R271). -/
def Memory.read : Memory → Nat → Byte
  | [], _ => 0
  | (k, b) :: m, a => if k = a then b else Memory.read m a

/-- Put a byte at the head of a memory whose addresses are all greater; 0x00 is not listed. -/
def consByte (a : Nat) (b : Byte) (m : Memory) : Memory := if b = 0 then m else (a, b) :: m

/-- Store one byte, keeping the canonical form. -/
def Memory.write : Memory → Nat → Byte → Memory
  | [], a, b => consByte a b []
  | (k, c) :: m, a, b =>
    if a < k then consByte a b ((k, c) :: m)
    else if a = k then consByte a b m
    else (k, c) :: Memory.write m a b

/-- Every address listed is greater than `a`, and the addresses rise strictly. -/
def risingFrom (a : Nat) : Memory → Bool
  | [] => true
  | (k, _) :: m => decide (a < k) && risingFrom k m

/-- The addresses rise strictly. -/
def rising : Memory → Bool
  | [] => true
  | (k, _) :: m => risingFrom k m

/-- The canonical form: addresses strictly rising and inside 0..0xFFFF, no entry 0x00. -/
def Memory.wf (m : Memory) : Bool :=
  rising m && m.all fun c => decide (c.1 ≤ 0xFFFF) && decide (c.2 ≠ 0)

/-- The test of R51 and R52: every byte of the access lies in 0..0xFFFF. -/
def inBounds (addr : Nat) (w : Width) : Bool := decide (addr + w.bytes - 1 ≤ 0xFFFF)

/-- The value of an access inside the bounds, little-endian (R51). -/
def loadBytes (m : Memory) (addr : Nat) : Width → Nat
  | .byte => (m.read addr).toNat
  | .word => (wordOf (m.read addr) (m.read (addr + 1))).toNat

/-- The memory after a store inside the bounds, little-endian, the value truncated to the width (R52). -/
def storeBytes (m : Memory) (addr : Nat) (w : Width) (v : Int) : Memory :=
  match w with
  | .byte => m.write addr (BitVec.ofInt 8 v)
  | .word => (m.write addr (lowByte (BitVec.ofInt 16 v))).write (addr + 1) (highByte (BitVec.ofInt 16 v))

/-- `MemRead(addr, n)` (R51); none where it raises `MemoryOutOfBounds`. -/
def State.memRead (s : State) (addr : Nat) (w : Width) : Option Nat :=
  if inBounds addr w then some (loadBytes s.mem addr w) else none

/-- `MemWrite(addr, n, v)` (R52); none where it raises `MemoryOutOfBounds`, in which case no byte is written. -/
def State.memWrite (s : State) (addr : Nat) (w : Width) (v : Int) : Option State :=
  if inBounds addr w then some { s with mem := storeBytes s.mem addr w v } else none

/-! ### Taking a fault (spec/60_exceptions.md R243)

There is no return from a fault beside it: a faulted state is terminal (R244), the core has no trap entry and no trap
return (R247, R248), and only the host's `load` (`loadImage`, Machine/HostSide.lean) makes the state run again. -/

/-- The two divide faults, whose faulted IP is the address after the instruction (R243(c)). -/
def FaultCode.isDivide : FaultCode → Bool
  | .divideByZero | .divideOverflow => true
  | .ipOutOfBounds | .memoryOutOfBounds | .unknownOpcode => false

/-- The code numbers of the faults (R241). -/
def FaultCode.number : FaultCode → Nat
  | .ipOutOfBounds => 1
  | .memoryOutOfBounds => 2
  | .divideByZero => 3
  | .divideOverflow => 4
  | .unknownOpcode => 5

/-- R243(d): a divide fault of an instruction of length `len` that ends at 0x10000 (or beyond, for an instruction that
no fetch could have read) leaves an unspecified IP. -/
def faultDrawsIp (s : State) (c : FaultCode) (len : Nat) : Bool :=
  c.isDivide && decide (0x10000 ≤ s.ip.toNat + len)

/-- The IP of the faulted state (R243(c), (d)). -/
def faultedIp (s : State) (c : FaultCode) (len : Nat) : Word :=
  if c.isDivide then
    if 0x10000 ≤ s.ip.toNat + len then Config.faultedIp s.draws else BitVec.ofNat 16 (s.ip.toNat + len)
  else s.ip

/-- The faulted state (R243): no register, flag or memory write commits, no output, `fault` holds the code, and IP
is that of `faultedIp`. `s` is the state before the step, `len` the instruction's length. -/
def takeFault (s : State) (c : FaultCode) (len : Nat) : State :=
  { s with
    fault := some c
    output := none
    ip := faultedIp s c len
    draws := if faultDrawsIp s c len then s.draws + 1 else s.draws }

/-- `raise Fault(code)` (00_scope.md R13). -/
def raise (s : State) (c : FaultCode) (len : Nat) : Result := .next (takeFault s c len)

/-! ### The end of a step (spec/30_encoding.md R72, R74; spec/00_scope.md R14) -/

/-- Apply a step's writes. `s` is the state before the step, `t` is `s` with the step's writes, `next` the next IP as
an unbounded integer, `out` the step's output. A `next` outside 0..0xFFFF raises `IpOutOfBounds` and nothing
commits (R74). -/
def commit (s t : State) (next : Int) (out : Option (List Byte)) : Result :=
  if 0 ≤ next ∧ next.toNat ≤ 0xFFFF then .next { t with ip := BitVec.ofInt 16 next, output := out }
  else raise s .ipOutOfBounds 0

/-- The end of an instruction of `len` bytes that does not transfer control and emits nothing: `next` is the address
just past its last byte (R74). -/
def complete (s t : State) (len : Nat) : Result := commit s t (s.ip.toNat + len) none

end Sys2Proof.Machine
end

