-- ==== Sys2Proof/Machine/Operands.lean ====
section
/-! DEFINITION. The operand forms (spec/30_encoding.md R78, R80, R82) and the operations that several instructions
share: moves, two-operand arithmetic and logic, read-modify-write of one byte, multiply, divide, relative jumps. -/

namespace Sys2Proof.Machine

/-- An operand in memory. -/
inductive MemOperand where
  /-- `[addr]` -/
  | direct (addr : Word)
  /-- `[base+idx]` -/
  | indexed (idx : RegId) (base : Word)
deriving DecidableEq, Repr

/-- The effective address (R80): the sum is a natural number and does not wrap. -/
def effAddr (s : State) : MemOperand → Nat
  | .direct addr => addr.toNat
  | .indexed idx base => base.toNat + s.reg idx

/-- The source operand of a two-operand form. -/
inductive Source where
  | reg (r : RegId)
  | imm (v : Word)
  | mem (m : MemOperand)
deriving DecidableEq, Repr

/-- The source value at the width of the destination (R82); none where reading it raises `MemoryOutOfBounds`. -/
def sourceValue (s : State) (w : Width) : Source → Option Nat
  | .reg r => some (s.reg r &&& maskOf w.bits)
  | .imm v => some (v.toNat &&& maskOf w.bits)
  | .mem m => s.memRead (effAddr s m) w

/-! ### Moves (spec/40_data_transfer.md R110) -/

/-- MOV to a register: the source at the destination's width; no flag. -/
def moveToReg (d : RegId) (src : Source) (len : Nat) (s : State) : Result :=
  match sourceValue s d.width src with
  | none => raise s .memoryOutOfBounds len
  | some v => complete s (s.setReg d v) len

/-- MOV to memory: `v` is stored at width `w`; no flag. -/
def moveToMem (m : MemOperand) (w : Width) (v : Int) (len : Nat) (s : State) : Result :=
  match s.memWrite (effAddr s m) w v with
  | none => raise s .memoryOutOfBounds len
  | some t => complete s t len

/-! ### Two-operand arithmetic and logic (spec/41_arith_logic.md R130, R131) -/

/-- The two-operand operations. -/
inductive AluOp where
  | add | sub | cmp | and | or | xor
deriving DecidableEq, Repr

/-- The raw result, an unbounded integer (R131). -/
def aluRaw (op : AluOp) (dv srcv : Nat) : Int :=
  match op with
  | .add => (dv : Int) + srcv
  | .sub | .cmp => (dv : Int) - srcv
  | .and => ((dv &&& srcv : Nat) : Int)
  | .or => ((dv ||| srcv : Nat) : Int)
  | .xor => ((dv ^^^ srcv : Nat) : Int)

/-- Does the operation write its destination? CMP does not (R131). -/
def aluWrites : AluOp → Bool
  | .cmp => false
  | .add | .sub | .and | .or | .xor => true

/-- `ALU2(op, d, srcv)` (R131): the result truncated into `d` (but for CMP), ZF, SF and CF from the raw result. -/
def alu2 (op : AluOp) (d : RegId) (src : Source) (len : Nat) (s : State) : Result :=
  match sourceValue s d.width src with
  | none => raise s .memoryOutOfBounds len
  | some v =>
    let raw := aluRaw op (s.reg d) v
    let t := if aluWrites op then s.setReg d raw else s
    complete s (t.setFlags raw d.width.bits) len

/-! ### One-operand forms (spec/41_arith_logic.md R156) -/

/-- `(~v) & mask(w)`. -/
def complement (w : Width) (v : Nat) : Nat := maskOf w.bits ^^^ (v &&& maskOf w.bits)

/-- A read-modify-write of one byte of memory: `f` gives the raw result of the byte, and ZF, SF, CF are set from it
at width 8 where `flagged` says so. -/
def modifyByte (m : MemOperand) (f : Nat → Int) (flagged : Bool) (len : Nat) (s : State) : Result :=
  match s.memRead (effAddr s m) .byte with
  | none => raise s .memoryOutOfBounds len
  | some v =>
    match s.memWrite (effAddr s m) .byte (f v) with
    | none => raise s .memoryOutOfBounds len
    | some t => complete s (if flagged then t.setFlags (f v) 8 else t) len

/-- NOT of a register: the complement at its width; no flag (R159). -/
def notReg (r : RegId) (len : Nat) (s : State) : Result :=
  complete s (s.setReg r (complement r.width (s.reg r))) len

/-! ### Multiply and divide (spec/42_mul_div.md R180 to R182) -/

/-- The width in bits at which MUL sets the flags (R181): w under `Operand`, 2w under `Product`. -/
def mulFlagBits (c : Config) (w : Width) : Nat :=
  match c.mulFlagWidth with
  | .operand => w.bits
  | .product => 2 * w.bits

/-- Unsigned multiply by `m` at width `w` (R181): AX from AL * m, or DX:AX from AX * m; flags from the product. -/
def multiply (w : Width) (m : Nat) (len : Nat) (s : State) : Result :=
  match w with
  | .byte =>
    let p := s.reg .al * m
    complete s ((s.setReg .ax p).setFlags p (mulFlagBits s.config .byte)) len
  | .word =>
    let p := s.reg .ax * m
    let t := (s.setReg .dx ((p >>> 16 : Nat) : Int)).setReg .ax ((p &&& 0xFFFF : Nat) : Int)
    complete s (t.setFlags p (mulFlagBits s.config .word)) len

/-- ZF, SF and CF take the draw `divFlags`, and the draw is used up (R182). -/
def State.drawDivFlags (s : State) : State :=
  { s with flags := assignFlags s.flags (Config.divFlags s.draws), draws := s.draws + 1 }

/-- Unsigned divide by `v` at width `w` (R182): the two checks in order, then quotient and remainder. -/
def divide (w : Width) (v : Nat) (len : Nat) (s : State) : Result :=
  if v = 0 then raise s .divideByZero len
  else
    match w with
    | .byte =>
      let n := s.reg .ax
      if n / v > 0xFF then raise s .divideOverflow len
      else
        let t := (s.setReg .al ((n / v : Nat) : Int)).setReg .ah ((n % v : Nat) : Int)
        complete s t.drawDivFlags len
    | .word =>
      let n := s.reg .dx * 65536 + s.reg .ax
      if n / v > 0xFFFF then raise s .divideOverflow len
      else
        let t := (s.setReg .ax ((n / v : Nat) : Int)).setReg .dx ((n % v : Nat) : Int)
        complete s t.drawDivFlags len

/-- Multiply by a byte of memory (R183, R184). -/
def multiplyMem (m : MemOperand) (len : Nat) (s : State) : Result :=
  match s.memRead (effAddr s m) .byte with
  | none => raise s .memoryOutOfBounds len
  | some v => multiply .byte v len s

/-- Divide by a byte of memory (R185, R186). -/
def divideMem (m : MemOperand) (len : Nat) (s : State) : Result :=
  match s.memRead (effAddr s m) .byte with
  | none => raise s .memoryOutOfBounds len
  | some v => divide .byte v len s

/-! ### Relative jumps (spec/43_control.md R200) -/

/-- End a control transfer of `len` bytes: taken, the next IP is the address after it plus `disp`; not taken, that
address. `t` is `s` with the instruction's writes. -/
def jumpRel (s t : State) (taken : Bool) (len : Nat) (disp : Int) : Result :=
  commit s t (if taken then (s.ip.toNat : Int) + len + disp else (s.ip.toNat : Int) + len) none

/-- A conditional jump (R203): the condition on the flags, the 8-bit displacement sign-extended. -/
def jumpIf (c : Cond) (disp : Byte) (len : Nat) (s : State) : Result :=
  jumpRel s s (condHolds s.flags c) len disp.toInt

end Sys2Proof.Machine
end

