-- ==== Sys2Proof/Machine/ArithLogic.lean ====
section
/-! DEFINITION. The meanings of ADD, SUB, CMP, AND, OR, XOR, INC, DEC and NOT (spec/41_arith_logic.md R130 to R165). -/

namespace Sys2Proof.Machine

/-- `ADD r,r` (R132): `x[d] <- dv + srcv`, `SetFlags(dv + srcv, w(d))`. -/
def execAddRR (d : RegId) (r : RegId) (s : State) : Result :=
  alu2 .add d (.reg r) (formatLength .RR) s

/-- `ADD r,imm` (R133): `x[d] <- dv + srcv`, `SetFlags(dv + srcv, w(d))`. -/
def execAddRI (d : RegId) (imm : Word) (s : State) : Result :=
  alu2 .add d (.imm imm) (formatLength .RI) s

/-- `ADD r,[addr]` (R134): `x[d] <- dv + srcv`, `SetFlags(dv + srcv, w(d))`. -/
def execAddRM (d : RegId) (addr : Word) (s : State) : Result :=
  alu2 .add d (.mem (.direct addr)) (formatLength .RM) s

/-- `ADD r,[base+idx]` (R135): `x[d] <- dv + srcv`, `SetFlags(dv + srcv, w(d))`. -/
def execAddRX (d : RegId) (idx : RegId) (base : Word) (s : State) : Result :=
  alu2 .add d (.mem (.indexed idx base)) (formatLength .RX) s

/-- `SUB r,r` (R136): `x[d] <- dv - srcv`, `SetFlags(dv - srcv, w(d))`. -/
def execSubRR (d : RegId) (r : RegId) (s : State) : Result :=
  alu2 .sub d (.reg r) (formatLength .RR) s

/-- `SUB r,imm` (R137): `x[d] <- dv - srcv`, `SetFlags(dv - srcv, w(d))`. -/
def execSubRI (d : RegId) (imm : Word) (s : State) : Result :=
  alu2 .sub d (.imm imm) (formatLength .RI) s

/-- `SUB r,[addr]` (R138): `x[d] <- dv - srcv`, `SetFlags(dv - srcv, w(d))`. -/
def execSubRM (d : RegId) (addr : Word) (s : State) : Result :=
  alu2 .sub d (.mem (.direct addr)) (formatLength .RM) s

/-- `SUB r,[base+idx]` (R139): `x[d] <- dv - srcv`, `SetFlags(dv - srcv, w(d))`. -/
def execSubRX (d : RegId) (idx : RegId) (base : Word) (s : State) : Result :=
  alu2 .sub d (.mem (.indexed idx base)) (formatLength .RX) s

/-- `CMP r,r` (R140): `SetFlags(dv - srcv, w(d))`, nothing else written. -/
def execCmpRR (d : RegId) (r : RegId) (s : State) : Result :=
  alu2 .cmp d (.reg r) (formatLength .RR) s

/-- `CMP r,imm` (R141): `SetFlags(dv - srcv, w(d))`, nothing else written. -/
def execCmpRI (d : RegId) (imm : Word) (s : State) : Result :=
  alu2 .cmp d (.imm imm) (formatLength .RI) s

/-- `CMP r,[addr]` (R142): `SetFlags(dv - srcv, w(d))`, nothing else written. -/
def execCmpRM (d : RegId) (addr : Word) (s : State) : Result :=
  alu2 .cmp d (.mem (.direct addr)) (formatLength .RM) s

/-- `CMP r,[base+idx]` (R143): `SetFlags(dv - srcv, w(d))`, nothing else written. -/
def execCmpRX (d : RegId) (idx : RegId) (base : Word) (s : State) : Result :=
  alu2 .cmp d (.mem (.indexed idx base)) (formatLength .RX) s

/-- `AND r,r` (R144): `x[d] <- dv & srcv`, `SetFlags(dv & srcv, w(d))`. -/
def execAndRR (d : RegId) (r : RegId) (s : State) : Result :=
  alu2 .and d (.reg r) (formatLength .RR) s

/-- `AND r,imm` (R145): `x[d] <- dv & srcv`, `SetFlags(dv & srcv, w(d))`. -/
def execAndRI (d : RegId) (imm : Word) (s : State) : Result :=
  alu2 .and d (.imm imm) (formatLength .RI) s

/-- `AND r,[addr]` (R146): `x[d] <- dv & srcv`, `SetFlags(dv & srcv, w(d))`. -/
def execAndRM (d : RegId) (addr : Word) (s : State) : Result :=
  alu2 .and d (.mem (.direct addr)) (formatLength .RM) s

/-- `AND r,[base+idx]` (R147): `x[d] <- dv & srcv`, `SetFlags(dv & srcv, w(d))`. -/
def execAndRX (d : RegId) (idx : RegId) (base : Word) (s : State) : Result :=
  alu2 .and d (.mem (.indexed idx base)) (formatLength .RX) s

/-- `OR r,r` (R148): `x[d] <- dv | srcv`, `SetFlags(dv | srcv, w(d))`. -/
def execOrRR (d : RegId) (r : RegId) (s : State) : Result :=
  alu2 .or d (.reg r) (formatLength .RR) s

/-- `OR r,imm` (R149): `x[d] <- dv | srcv`, `SetFlags(dv | srcv, w(d))`. -/
def execOrRI (d : RegId) (imm : Word) (s : State) : Result :=
  alu2 .or d (.imm imm) (formatLength .RI) s

/-- `OR r,[addr]` (R150): `x[d] <- dv | srcv`, `SetFlags(dv | srcv, w(d))`. -/
def execOrRM (d : RegId) (addr : Word) (s : State) : Result :=
  alu2 .or d (.mem (.direct addr)) (formatLength .RM) s

/-- `OR r,[base+idx]` (R151): `x[d] <- dv | srcv`, `SetFlags(dv | srcv, w(d))`. -/
def execOrRX (d : RegId) (idx : RegId) (base : Word) (s : State) : Result :=
  alu2 .or d (.mem (.indexed idx base)) (formatLength .RX) s

/-- `XOR r,r` (R152): `x[d] <- dv ^ srcv`, `SetFlags(dv ^ srcv, w(d))`. -/
def execXorRR (d : RegId) (r : RegId) (s : State) : Result :=
  alu2 .xor d (.reg r) (formatLength .RR) s

/-- `XOR r,imm` (R153): `x[d] <- dv ^ srcv`, `SetFlags(dv ^ srcv, w(d))`. -/
def execXorRI (d : RegId) (imm : Word) (s : State) : Result :=
  alu2 .xor d (.imm imm) (formatLength .RI) s

/-- `XOR r,[addr]` (R154): `x[d] <- dv ^ srcv`, `SetFlags(dv ^ srcv, w(d))`. -/
def execXorRM (d : RegId) (addr : Word) (s : State) : Result :=
  alu2 .xor d (.mem (.direct addr)) (formatLength .RM) s

/-- `XOR r,[base+idx]` (R155): `x[d] <- dv ^ srcv`, `SetFlags(dv ^ srcv, w(d))`. -/
def execXorRX (d : RegId) (idx : RegId) (base : Word) (s : State) : Result :=
  alu2 .xor d (.mem (.indexed idx base)) (formatLength .RX) s

/-- `INC r` (R157): as ADD with immediate 1, so CF is written too (R156). -/
def execIncR (r : RegId) (s : State) : Result :=
  alu2 .add r (.imm 1#16) (formatLength .R) s

/-- `INC [addr]` (R160): one byte is read, incremented and written back; flags at width 8. -/
def execIncM (addr : Word) (s : State) : Result :=
  modifyByte (.direct addr) (fun v => (v : Int) + 1) true (formatLength .M) s

/-- `INC [base+idx]` (R161): one byte is read, incremented and written back; flags at width 8. -/
def execIncX (idx : RegId) (base : Word) (s : State) : Result :=
  modifyByte (.indexed idx base) (fun v => (v : Int) + 1) true (formatLength .X) s

/-- `DEC r` (R158): as SUB with immediate 1, so CF is written too (R156). -/
def execDecR (r : RegId) (s : State) : Result :=
  alu2 .sub r (.imm 1#16) (formatLength .R) s

/-- `DEC [addr]` (R162): one byte is read, decremented and written back; flags at width 8. -/
def execDecM (addr : Word) (s : State) : Result :=
  modifyByte (.direct addr) (fun v => (v : Int) - 1) true (formatLength .M) s

/-- `DEC [base+idx]` (R163): one byte is read, decremented and written back; flags at width 8. -/
def execDecX (idx : RegId) (base : Word) (s : State) : Result :=
  modifyByte (.indexed idx base) (fun v => (v : Int) - 1) true (formatLength .X) s

/-- `NOT r` (R159): `x[r] <- (~x[r]) & mask(w)`; flags unchanged. -/
def execNotR (r : RegId) (s : State) : Result :=
  notReg r (formatLength .R) s

/-- `NOT [addr]` (R164): one byte is read, complemented and written back; flags unchanged. -/
def execNotM (addr : Word) (s : State) : Result :=
  modifyByte (.direct addr) (fun v => (complement .byte v : Int)) false (formatLength .M) s

/-- `NOT [base+idx]` (R165): one byte is read, complemented and written back; flags unchanged. -/
def execNotX (idx : RegId) (base : Word) (s : State) : Result :=
  modifyByte (.indexed idx base) (fun v => (complement .byte v : Int)) false (formatLength .X) s

end Sys2Proof.Machine
end

