-- ==== Sys2Proof/Machine/Control.lean ====
section
/-! DEFINITION. The meanings of JMP, the conditional jumps and LOOP (spec/43_control.md R200 to R214). -/

namespace Sys2Proof.Machine

/-- `JMP rel16` (R202): `next := a + 3 + sext_16(disp16)`. -/
def execJmp (disp : Word) (s : State) : Result :=
  jumpRel s s true (formatLength .J16) disp.toInt

/-- `JE rel8` (R204): taken on the condition of R203. -/
def execJe (disp : Byte) (s : State) : Result :=
  jumpIf .e disp (formatLength .J8) s

/-- `JNE rel8` (R205): taken on the condition of R203. -/
def execJne (disp : Byte) (s : State) : Result :=
  jumpIf .ne disp (formatLength .J8) s

/-- `JL rel8` (R206): taken on the condition of R203. -/
def execJl (disp : Byte) (s : State) : Result :=
  jumpIf .l disp (formatLength .J8) s

/-- `JLE rel8` (R207): taken on the condition of R203. -/
def execJle (disp : Byte) (s : State) : Result :=
  jumpIf .le disp (formatLength .J8) s

/-- `JG rel8` (R208): taken on the condition of R203. -/
def execJg (disp : Byte) (s : State) : Result :=
  jumpIf .g disp (formatLength .J8) s

/-- `JGE rel8` (R209): taken on the condition of R203. -/
def execJge (disp : Byte) (s : State) : Result :=
  jumpIf .ge disp (formatLength .J8) s

/-- `JB rel8` (R210): taken on the condition of R203. -/
def execJb (disp : Byte) (s : State) : Result :=
  jumpIf .b disp (formatLength .J8) s

/-- `JAE rel8` (R211): taken on the condition of R203. -/
def execJae (disp : Byte) (s : State) : Result :=
  jumpIf .ae disp (formatLength .J8) s

/-- `JBE rel8` (R212): taken on the condition of R203. -/
def execJbe (disp : Byte) (s : State) : Result :=
  jumpIf .be disp (formatLength .J8) s

/-- `JA rel8` (R213): taken on the condition of R203. -/
def execJa (disp : Byte) (s : State) : Result :=
  jumpIf .a disp (formatLength .J8) s

/-- `LOOP rel8` (R214): CX is decremented modulo 2^16, and the jump is taken while the result is not 0; no flag. -/
def execLoop (disp : Byte) (s : State) : Result :=
  let c : Word := s.regs.cx - 1
  jumpRel s (s.setReg .cx c.toNat) (decide (c ≠ 0)) (formatLength .J8) disp.toInt

end Sys2Proof.Machine
end

