-- ==== Sys2Proof/Machine/DataTransfer.lean ====
section
/-! DEFINITION. The meanings of MOV and NOP (spec/40_data_transfer.md R110 to R119). -/

namespace Sys2Proof.Machine

/-- `MOV r,r` (R111): `x[d] <- x[s] & mask(w(d))`. -/
def execMovRR (d : RegId) (r : RegId) (s : State) : Result :=
  moveToReg d (.reg r) (formatLength .RR) s

/-- `MOV r,imm` (R112): `x[r] <- imm16 & mask(w(r))`. -/
def execMovRI (d : RegId) (imm : Word) (s : State) : Result :=
  moveToReg d (.imm imm) (formatLength .RI) s

/-- `MOV r,[addr]` (R113): `x[r] <- MemRead(EA, w(r)/8)`. -/
def execMovRM (d : RegId) (addr : Word) (s : State) : Result :=
  moveToReg d (.mem (.direct addr)) (formatLength .RM) s

/-- `MOV r,[base+idx]` (R114): `x[r] <- MemRead(base16 + x[idx], w(r)/8)`. -/
def execMovRX (d : RegId) (idx : RegId) (base : Word) (s : State) : Result :=
  moveToReg d (.mem (.indexed idx base)) (formatLength .RX) s

/-- `MOV [addr],r` (R115): `MemWrite(EA, w(r)/8, x[r])`. -/
def execMovMR (r : RegId) (addr : Word) (s : State) : Result :=
  moveToMem (.direct addr) r.width (s.reg r) (formatLength .RM) s

/-- `MOV [base+idx],r` (R116): `MemWrite(base16 + x[idx], w(r)/8, x[r])`. -/
def execMovXR (r : RegId) (idx : RegId) (base : Word) (s : State) : Result :=
  moveToMem (.indexed idx base) r.width (s.reg r) (formatLength .RX) s

/-- `MOV [addr],imm8` (R117): `MemWrite(EA, 1, imm8)`. -/
def execMovMI (addr : Word) (imm : Byte) (s : State) : Result :=
  moveToMem (.direct addr) .byte imm.toNat (formatLength .MI) s

/-- `MOV [base+idx],imm8` (R118): `MemWrite(base16 + x[idx], 1, imm8)`. -/
def execMovXI (idx : RegId) (base : Word) (imm : Byte) (s : State) : Result :=
  moveToMem (.indexed idx base) .byte imm.toNat (formatLength .XI) s

/-- `NOP` (R119): no effect. -/
def execNop (s : State) : Result :=
  complete s s (formatLength .N)

end Sys2Proof.Machine
end

