-- ==== Sys2Proof/Machine/MulDiv.lean ====
section
/-! DEFINITION. The meanings of MUL and DIV (spec/42_mul_div.md R180 to R187). -/

namespace Sys2Proof.Machine

/-- `MUL r` (R181): AL or AX times the register. -/
def execMulR (r : RegId) (s : State) : Result :=
  multiply r.width (s.reg r) (formatLength .R) s

/-- `MUL [addr]` (R183): AL times the byte at EA. -/
def execMulM (addr : Word) (s : State) : Result :=
  multiplyMem (.direct addr) (formatLength .M) s

/-- `MUL [base+idx]` (R184): AL times the byte at EA. -/
def execMulX (idx : RegId) (base : Word) (s : State) : Result :=
  multiplyMem (.indexed idx base) (formatLength .X) s

/-- `DIV r` (R182): AX or DX:AX divided by the register. -/
def execDivR (r : RegId) (s : State) : Result :=
  divide r.width (s.reg r) (formatLength .R) s

/-- `DIV [addr]` (R185): AX divided by the byte at EA. -/
def execDivM (addr : Word) (s : State) : Result :=
  divideMem (.direct addr) (formatLength .M) s

/-- `DIV [base+idx]` (R186): AX divided by the byte at EA. -/
def execDivX (idx : RegId) (base : Word) (s : State) : Result :=
  divideMem (.indexed idx base) (formatLength .X) s

end Sys2Proof.Machine
end

