-- ==== Sys2Proof/Machine/System.lean ====
section
/-! DEFINITION. The meanings of HLT, RET and INT, and the services of INT 21h (spec/44_system.md R220 to R227). -/

namespace Sys2Proof.Machine

/-- The bytes from address `p` up to and not including the first 0x24 (`$`), looking at no more than `fuel` bytes; none
where there is no 0x24 among them (R224). -/
def dollarString (m : Memory) : Nat → Nat → Option (List Byte)
  | _, 0 => none
  | p, fuel + 1 =>
    let b := m.read p
    if b.toNat = 0x24 then some [] else (dollarString m (p + 1) fuel).map (b :: ·)

/-- AH = 0x02: emit the byte DL (R223). -/
def emitCharacter (len : Nat) (s : State) : Result :=
  commit s s ((s.ip.toNat : Int) + len) (some [lowByte s.regs.dx])

/-- AH = 0x09: emit the `$`-terminated string at DX; a string that does not end by 0xFFFF raises `MemoryOutOfBounds`
and emits nothing (R224). -/
def emitString (len : Nat) (s : State) : Result :=
  match dollarString s.mem (s.reg .dx) (0x10000 - s.reg .dx) with
  | none => raise s .memoryOutOfBounds len
  | some str => commit s s ((s.ip.toNat : Int) + len) (some str)

/-- The services of INT 21h, chosen by AH; every other AH is a no-op (R225). -/
def serviceCall (len : Nat) (s : State) : Result :=
  if s.reg .ah = 0x02 then emitCharacter len s
  else if s.reg .ah = 0x09 then emitString len s
  else complete s s len

/-- `HLT` (R220): `halted <- true`; IP points past the HLT. -/
def execHlt (s : State) : Result :=
  complete s { s with halted := true } (formatLength .N)

/-- `RET` (R221): a reserved opcode with no effect: no stack exists, SP is not touched. -/
def execRet (s : State) : Result :=
  complete s s (formatLength .N)

/-- `INT imm8` (R222): only `n = 0x21` has services; every other number is a no-op (R225). -/
def execInt (n : Byte) (s : State) : Result :=
  if n.toNat = 0x21 then serviceCall (formatLength .I8) s else complete s s (formatLength .I8)

end Sys2Proof.Machine
end

