-- ==== Sys2Proof/Machine/Dispatch.lean ====
section
/-! DEFINITION. The dispatch: one arm per constructor of Instr, one direct call of its meaning each. -/

namespace Sys2Proof.Machine

def exec (i : Instr) (s : State) : Host.Outcome State Fault Refusal :=
  match i with
  | .movRR d r => Sys2Proof.Machine.execMovRR d r s
  | .movRI d imm => Sys2Proof.Machine.execMovRI d imm s
  | .movRM d addr => Sys2Proof.Machine.execMovRM d addr s
  | .movRX d idx base => Sys2Proof.Machine.execMovRX d idx base s
  | .movMR r addr => Sys2Proof.Machine.execMovMR r addr s
  | .movXR r idx base => Sys2Proof.Machine.execMovXR r idx base s
  | .movMI addr imm => Sys2Proof.Machine.execMovMI addr imm s
  | .movXI idx base imm => Sys2Proof.Machine.execMovXI idx base imm s
  | .nop => Sys2Proof.Machine.execNop s
  | .addRR d r => Sys2Proof.Machine.execAddRR d r s
  | .addRI d imm => Sys2Proof.Machine.execAddRI d imm s
  | .addRM d addr => Sys2Proof.Machine.execAddRM d addr s
  | .addRX d idx base => Sys2Proof.Machine.execAddRX d idx base s
  | .subRR d r => Sys2Proof.Machine.execSubRR d r s
  | .subRI d imm => Sys2Proof.Machine.execSubRI d imm s
  | .subRM d addr => Sys2Proof.Machine.execSubRM d addr s
  | .subRX d idx base => Sys2Proof.Machine.execSubRX d idx base s
  | .cmpRR d r => Sys2Proof.Machine.execCmpRR d r s
  | .cmpRI d imm => Sys2Proof.Machine.execCmpRI d imm s
  | .cmpRM d addr => Sys2Proof.Machine.execCmpRM d addr s
  | .cmpRX d idx base => Sys2Proof.Machine.execCmpRX d idx base s
  | .andRR d r => Sys2Proof.Machine.execAndRR d r s
  | .andRI d imm => Sys2Proof.Machine.execAndRI d imm s
  | .andRM d addr => Sys2Proof.Machine.execAndRM d addr s
  | .andRX d idx base => Sys2Proof.Machine.execAndRX d idx base s
  | .orRR d r => Sys2Proof.Machine.execOrRR d r s
  | .orRI d imm => Sys2Proof.Machine.execOrRI d imm s
  | .orRM d addr => Sys2Proof.Machine.execOrRM d addr s
  | .orRX d idx base => Sys2Proof.Machine.execOrRX d idx base s
  | .xorRR d r => Sys2Proof.Machine.execXorRR d r s
  | .xorRI d imm => Sys2Proof.Machine.execXorRI d imm s
  | .xorRM d addr => Sys2Proof.Machine.execXorRM d addr s
  | .xorRX d idx base => Sys2Proof.Machine.execXorRX d idx base s
  | .incR r => Sys2Proof.Machine.execIncR r s
  | .incM addr => Sys2Proof.Machine.execIncM addr s
  | .incX idx base => Sys2Proof.Machine.execIncX idx base s
  | .decR r => Sys2Proof.Machine.execDecR r s
  | .decM addr => Sys2Proof.Machine.execDecM addr s
  | .decX idx base => Sys2Proof.Machine.execDecX idx base s
  | .notR r => Sys2Proof.Machine.execNotR r s
  | .notM addr => Sys2Proof.Machine.execNotM addr s
  | .notX idx base => Sys2Proof.Machine.execNotX idx base s
  | .mulR r => Sys2Proof.Machine.execMulR r s
  | .mulM addr => Sys2Proof.Machine.execMulM addr s
  | .mulX idx base => Sys2Proof.Machine.execMulX idx base s
  | .divR r => Sys2Proof.Machine.execDivR r s
  | .divM addr => Sys2Proof.Machine.execDivM addr s
  | .divX idx base => Sys2Proof.Machine.execDivX idx base s
  | .jmp disp => Sys2Proof.Machine.execJmp disp s
  | .je disp => Sys2Proof.Machine.execJe disp s
  | .jne disp => Sys2Proof.Machine.execJne disp s
  | .jl disp => Sys2Proof.Machine.execJl disp s
  | .jle disp => Sys2Proof.Machine.execJle disp s
  | .jg disp => Sys2Proof.Machine.execJg disp s
  | .jge disp => Sys2Proof.Machine.execJge disp s
  | .jb disp => Sys2Proof.Machine.execJb disp s
  | .jae disp => Sys2Proof.Machine.execJae disp s
  | .jbe disp => Sys2Proof.Machine.execJbe disp s
  | .ja disp => Sys2Proof.Machine.execJa disp s
  | .loop disp => Sys2Proof.Machine.execLoop disp s
  | .hlt => Sys2Proof.Machine.execHlt s
  | .ret => Sys2Proof.Machine.execRet s
  | .int n => Sys2Proof.Machine.execInt n s

end Sys2Proof.Machine
end

