-- ==== Sys2Proof/Machine/Fetch.lean ====
section
/-! DEFINITION. The instruction stream: fetching the bytes of the next instruction, decoding them, and what a step
does when they are no instruction (spec/30_encoding.md R70 to R74, R79, R85). -/

namespace Sys2Proof.Machine

/-- `n` bytes of the instruction stream from an address, ending early at the end of memory: no byte lies beyond
0xFFFF (R71). -/
def fetchFrom (m : Memory) (a : Nat) : Nat → List Byte
  | 0 => []
  | n + 1 => if a ≤ 0xFFFF then m.read a :: fetchFrom m (a + 1) n else []

/-- The bytes a step can fetch: five from IP, the longest instruction, or those up to 0xFFFF. -/
def fetchBytes (s : State) : List Byte := fetchFrom s.mem s.ip.toNat 5

/-- Fetch and decode the instruction at IP. The decoder reads exactly the instruction's own bytes (R73); the bytes
after it are dropped. -/
def fetchInstr (s : State) : Except DecodeError Instr :=
  match decode (fetchBytes s) with
  | .ok (i, _) => .ok i
  | .error e => .error e

/-- A step whose bytes are no instruction: an operand byte beyond 0xFFFF raises `IpOutOfBounds` (R71); an unassigned
opcode raises `UnknownOpcode` or is a 1-byte no-op, by `UNKNOWN_OPCODE_POLICY` (R85); a register-id byte above 15
raises `UnknownOpcode` under either policy (R79). -/
def undecodable (e : DecodeError) (s : State) : Result :=
  match e with
  | .truncated => raise s .ipOutOfBounds 0
  | .badRegId _ => raise s .unknownOpcode 0
  | .unassigned _ =>
    match s.config.unknownOpcode with
    | .fault => raise s .unknownOpcode 0
    | .nop => complete s s 1

/-- Store bytes at consecutive addresses; bytes beyond 0xFFFF are dropped. -/
def placeBytes (m : Memory) (a : Nat) : List Byte → Memory
  | [] => m
  | b :: bs => if a ≤ 0xFFFF then placeBytes (m.write a b) (a + 1) bs else m

end Sys2Proof.Machine
end

