-- ==== Sys2Proof/Machine/Step.lean ====
section
/-! DEFINITION. One step of the machine (spec/30_encoding.md R72). -/

namespace Sys2Proof.Machine

/-- One step: a halted or faulted state has none (60_exceptions.md R244, 70_reset_and_hazards.md R273); a runnable
state fetches, decodes and executes one instruction. -/
def step (s : State) : Host.Outcome State Fault Refusal :=
  if s.halted then .fault .stepWhenHalted
  else
    match s.fault with
    | some c => .fault (.stepWhenFaulted c)
    | none =>
      match fetchInstr s with
      | .ok i => exec i s
      | .error e => undecodable e s

/-- `s` with an instruction whose bits are `w` placed where the next step fetches, at IP, and made runnable: this
stands for a `load` (notes/assumptions/6.md). -/
def State.withFetchWord (s : State) (nbits w : Nat) : State :=
  { s with mem := placeBytes s.mem s.ip.toNat (tableWordBytes nbits w), halted := false, fault := none }

end Sys2Proof.Machine
end

