-- ==== Sys2Proof/Machine/HostSide.lean ====
section
/-! DEFINITION. The host's side of the machine: `new_state`, `load`, and the bookkeeping a host keeps around `step`
(spec/70_reset_and_hazards.md R270 to R277). The core never reads what stands here (10_state.md R35), so it is a
record around the core's state and no part of it (notes/assumptions/12.md). -/

namespace Sys2Proof.Machine

/-- Memory holding the bytes of an image from address `a` on, in canonical form. -/
def imageFrom (a : Nat) : List Byte → Memory
  | [] => []
  | b :: bs => consByte a b (imageFrom (a + 1) bs)

/-- `load(state, image, entry)` (R272): all 65,536 bytes of memory come from the image, IP is the entry, `fault` and
`halted` are cleared; every other register and every flag stays. `image` stands for exactly 65,536 bytes: a shorter
list is filled with zeros, which is what R95 fills an image with, and bytes after the 65,536th are not read
(notes/assumptions/14.md). The model's `output` is none: no step led here. -/
def loadImage (s : State) (image : List Byte) (entry : Word) : State :=
  { s with mem := imageFrom 0 (image.take 0x10000), ip := entry, halted := false, fault := none, output := none }

/-- Reset (R270): `new_state()`, then `load(state, IMAGE, ENTRY)`, for a machine with the given parameters. -/
def resetWith (c : Config) (image : List Byte) : State :=
  loadImage { State.reset with config := c } image c.entry

/-- The host's `status` (R276). -/
inductive Status where
  | idle | running | paused | error
deriving DecidableEq, Repr

/-- The core with the host-facing metadata of R276: `status`, `error`, and the captured output log. A message is
identified by its fault (60_exceptions.md R242). -/
structure HostState where
  core : State
  status : Status
  error : Option FaultCode
  log : List (List Byte)
deriving DecidableEq, Repr

/-- The one message text the source gives (R242); none where the text is unspecified. -/
def messageText : FaultCode → Option String
  | .divideByZero => some "Divide by Zero"
  | .ipOutOfBounds | .memoryOutOfBounds | .divideOverflow | .unknownOpcode => none

/-- `new_state()` with the host's metadata (R271), for a machine with the given parameters. -/
def newState (c : Config) : HostState :=
  { core := { State.reset with config := c }, status := .idle, error := none, log := [] }

/-- `load` with the host's metadata (R276): status `idle`, `error` none; the log is not in the rule and stays. -/
def hostLoad (h : HostState) (image : List Byte) (entry : Word) : HostState :=
  { h with core := loadImage h.core image entry, status := .idle, error := none }

/-- Start or resume the free run (R276), whatever the status (DESIGN CHOICE, notes/assumptions/21.md). -/
def startRun (h : HostState) : HostState := { h with status := .running }

/-- Pause (R276), whatever the status (DESIGN CHOICE, notes/assumptions/21.md). -/
def pauseRun (h : HostState) : HostState := { h with status := .paused }

/-- What the host does with a step's result (R276): it appends the output to its log; `halted` gives status `idle`;
a fault gives status `error` and the fault's message. Of the status after any other step the rule says nothing: it
stays (DESIGN CHOICE, notes/assumptions/21.md). -/
def absorb (h : HostState) (t : State) : HostState :=
  let log := match t.output with
    | some out => h.log ++ [out]
    | none => h.log
  match t.fault with
  | some c => { core := t, status := .error, error := some c, log := log }
  | none => { core := t, status := if t.halted then .idle else h.status, error := h.error, log := log }

/-- Single step (R276): one `step` call. DESIGN CHOICE, unsafe (notes/assumptions/21.md): it is taken whatever the
status, and a step that neither halts nor faults keeps the status. R276 leaves open whether a paused machine may be
single-stepped: its row 'pause' says that no step is taken until the run is resumed, its row 'single step' states no
condition. -/
def singleStep (h : HostState) : Host.Outcome HostState Fault Refusal :=
  match step h.core with
  | .next t => .next (absorb h t)
  | .fault r => .fault r
  | .refused r => .refused r

/-- A batch of the free run (R277): `step` is called while the status is `running`, at most `n` times. -/
def freeRun : Nat → HostState → Host.Outcome HostState Fault Refusal
  | 0, h => .next h
  | n + 1, h =>
    if h.status = .running then
      match singleStep h with
      | .next g => freeRun n g
      | .fault r => .fault r
      | .refused r => .refused r
    else .next h

end Sys2Proof.Machine
end

