-- ==== Sys2Proof/Safety.lean ====
section
/-! DEFINITION. The terms in which claims about the machine are stated: runnable and well-formed states, which
registers share storage, what a step leaves alone, and the outcomes of an instruction. -/

namespace Sys2Proof.Machine

/-- A runnable state: not halted and not faulted (spec/70_reset_and_hazards.md R273). -/
def State.runnable (s : State) : Prop := s.halted = false ∧ s.fault = none

/-- The invariant of the machine: memory is in canonical form (so it lists no address above 0xFFFF), the dead and
inert state holds its reset value (spec/10_state.md R26, R32, R33), and a state is not halted and faulted at once
(R273). -/
structure State.Inv (s : State) : Prop where
  memory : s.mem.wf = true
  segments : s.segs = { cs := 0, ds := 0, es := 0, ss := 0 }
  overflowFlag : s.flags.ovf = false
  inertFlags : s.flags.pf = false ∧ s.flags.af = false ∧ s.flags.tf = false ∧ s.flags.ief = false ∧ s.flags.df = false
  oneEnd : s.halted = true → s.fault = none

/-- Do two register ids name storage that has a bit in common (R21)? -/
def overlap (r q : RegId) : Bool :=
  match r, q with
  | .al, .ax | .ax, .al | .ah, .ax | .ax, .ah => true
  | .bl, .bx | .bx, .bl | .bh, .bx | .bx, .bh => true
  | .cl, .cx | .cx, .cl | .ch, .cx | .cx, .ch => true
  | .dl, .dx | .dx, .dl | .dh, .dx | .dx, .dh => true
  | r, q => decide (r = q)

/-- Every register that shares no storage with one of `ds` reads in `t` as in `s`: in particular the other half of a
register of which one half is in `ds`. -/
def regsKeptBut (ds : List RegId) (s t : State) : Prop :=
  ∀ q : RegId, (∀ d ∈ ds, overlap q d = false) → t.reg q = s.reg q

/-- Every byte of memory reads in `t` as in `s`. -/
def memKept (s t : State) : Prop := ∀ a, t.mem.read a = s.mem.read a

/-- Every byte of memory outside the `n` bytes from address `a` reads in `t` as in `s`. -/
def memKeptBut (a n : Nat) (s t : State) : Prop := ∀ b, b < a ∨ a + n ≤ b → t.mem.read b = s.mem.read b

/-- The flags that no instruction writes are as before (R30, R32, R33). -/
def inertFlagsKept (s t : State) : Prop :=
  t.flags.pf = s.flags.pf ∧ t.flags.af = s.flags.af ∧ t.flags.tf = s.flags.tf ∧ t.flags.ief = s.flags.ief ∧
    t.flags.df = s.flags.df ∧ t.flags.ovf = s.flags.ovf

/-- What no register, flag or memory write touches is as before: the segment registers, the halted and fault marks,
the machine's parameters. -/
def marksKept (s t : State) : Prop :=
  t.segs = s.segs ∧ t.halted = s.halted ∧ t.fault = s.fault ∧ t.config = s.config

/-- ZF, SF and CF in `t` are those of the unbounded raw result at a width of `bits` bits (R31), the other flags are
those of `s`. -/
def flagsOfRaw (s t : State) (raw : Int) (bits : Nat) : Prop :=
  t.flags.zf = decide (raw % 2 ^ bits = 0) ∧ t.flags.sf = decide (2 ^ (bits - 1) ≤ raw % 2 ^ bits) ∧
    t.flags.cf = decide (raw > 2 ^ bits - 1 ∨ raw < 0) ∧ inertFlagsKept s t

/-- The value of `n` = 1 or 2 bytes of memory, low byte first (spec/20_memory.md R51, R54). -/
def valueAt (m : Memory) (a : Nat) : Width → Nat
  | .byte => (m.read a).toNat
  | .word => (m.read a).toNat + 256 * (m.read (a + 1)).toNat

/-- The outcome of a step that raises a fault other than a divide fault (spec/60_exceptions.md R243): the fault mark
is set and nothing else is different, IP stays at the instruction, and nothing is emitted. -/
def faultsWith (c : FaultCode) (s : State) (o : Result) : Prop :=
  o = .next { s with fault := some c, output := none }

/-- `o` is a next state that has gone on to the address `len` bytes after the instruction, emitted nothing, and left
the marks alone; what else holds of it is `post`. -/
def completes (len : Nat) (s : State) (o : Result) (post : State → Prop) : Prop :=
  ∃ t, o = .next t ∧ t.ip.toNat = s.ip.toNat + len ∧ t.output = none ∧ marksKept s t ∧ post t

/-- What a two-operand instruction that writes register `d` leaves (spec/41_arith_logic.md R131): the raw result
truncated to the width of `d`, the flags of the raw result, everything else as before. -/
def regResult (d : RegId) (raw : Int) (s t : State) : Prop :=
  (t.reg d : Int) = raw % 2 ^ d.width.bits ∧ regsKeptBut [d] s t ∧ flagsOfRaw s t raw d.width.bits ∧ memKept s t

/-- The opcode map as R83 of spec/30_encoding.md tabulates it: the format of an opcode byte, none for the bytes that
are unassigned (R85). -/
def opcodeFormat : Nat → Option Format
  | 0x90 | 0xC3 | 0xF4 => some .N
  | 0x0A | 0x10 | 0x20 | 0x22 | 0x30 | 0x32 | 0x38 => some .RR
  | 0x0B | 0x11 | 0x21 | 0x23 | 0x31 | 0x33 | 0x39 => some .RI
  | 0x0C | 0x24 | 0x26 | 0x34 | 0x36 | 0x3A | 0x89 | 0x8B => some .RM
  | 0x0D | 0x25 | 0x27 | 0x35 | 0x37 | 0x3B | 0x88 | 0x8A => some .RX
  | 0xC6 => some .MI
  | 0xC7 => some .XI
  | 0x40 | 0x41 | 0xF6 | 0xF7 | 0xF8 => some .R
  | 0xA4 | 0xA6 | 0xA8 | 0xAA | 0xAC => some .M
  | 0xA5 | 0xA7 | 0xA9 | 0xAB | 0xAD => some .X
  | 0x72 | 0x73 | 0x74 | 0x75 | 0x76 | 0x77 | 0x7C | 0x7D | 0x7E | 0x7F | 0xE2 => some .J8
  | 0xE9 => some .J16
  | 0xCD => some .I8
  | _ => none

/-- Where a format holds its whole-byte register ids, as offsets from the opcode byte (R75). -/
def regByteOffsets : Format → List Nat
  | .RI | .RM | .R | .X | .XI => [1]
  | .RX => [1, 2]
  | .N | .RR | .MI | .M | .J8 | .J16 | .I8 => []

/-- The instructions that write ZF, SF and CF (spec/10_state.md R30). -/
def writesFlags : Instr → Bool
  | .addRR _ _ | .addRI _ _ | .addRM _ _ | .addRX _ _ _ | .subRR _ _ | .subRI _ _ | .subRM _ _ | .subRX _ _ _
  | .cmpRR _ _ | .cmpRI _ _ | .cmpRM _ _ | .cmpRX _ _ _ | .andRR _ _ | .andRI _ _ | .andRM _ _ | .andRX _ _ _
  | .orRR _ _ | .orRI _ _ | .orRM _ _ | .orRX _ _ _ | .xorRR _ _ | .xorRI _ _ | .xorRM _ _ | .xorRX _ _ _
  | .incR _ | .incM _ | .incX _ _ | .decR _ | .decM _ | .decX _ _ | .mulR _ | .mulM _ | .mulX _ _ | .divR _
  | .divM _ | .divX _ _ => true
  | .movRR _ _ | .movRI _ _ | .movRM _ _ | .movRX _ _ _ | .movMR _ _ | .movXR _ _ _ | .movMI _ _
  | .movXI _ _ _ | .nop | .notR _ | .notM _ | .notX _ _ | .jmp _ | .je _ | .jne _ | .jl _ | .jle _ | .jg _
  | .jge _ | .jb _ | .jae _ | .jbe _ | .ja _ | .loop _ | .hlt | .ret | .int _ => false

/-- The control transfers (spec/43_control.md). -/
def transfersControl : Instr → Bool
  | .jmp _ | .je _ | .jne _ | .jl _ | .jle _ | .jg _ | .jge _ | .jb _ | .jae _ | .jbe _ | .ja _
  | .loop _ => true
  | .movRR _ _ | .movRI _ _ | .movRM _ _ | .movRX _ _ _ | .movMR _ _ | .movXR _ _ _ | .movMI _ _
  | .movXI _ _ _ | .nop | .addRR _ _ | .addRI _ _ | .addRM _ _ | .addRX _ _ _ | .subRR _ _ | .subRI _ _
  | .subRM _ _ | .subRX _ _ _ | .cmpRR _ _ | .cmpRI _ _ | .cmpRM _ _ | .cmpRX _ _ _ | .andRR _ _ | .andRI _ _
  | .andRM _ _ | .andRX _ _ _ | .orRR _ _ | .orRI _ _ | .orRM _ _ | .orRX _ _ _ | .xorRR _ _ | .xorRI _ _
  | .xorRM _ _ | .xorRX _ _ _ | .incR _ | .incM _ | .incX _ _ | .decR _ | .decM _ | .decX _ _ | .notR _
  | .notM _ | .notX _ _ | .mulR _ | .mulM _ | .mulX _ _ | .divR _ | .divM _ | .divX _ _ | .hlt | .ret
  | .int _ => false

/-- The effective address and the width of an instruction's data access (spec/20_memory.md R56, spec/30_encoding.md
R80), but for the string that INT 21h reads; none for an instruction that has none. -/
def dataAccess (i : Instr) (s : State) : Option (Nat × Width) :=
  match i with
  | .movRR _ _ | .movRI _ _ | .nop | .addRR _ _ | .addRI _ _ | .subRR _ _ | .subRI _ _ | .cmpRR _ _
  | .cmpRI _ _ | .andRR _ _ | .andRI _ _ | .orRR _ _ | .orRI _ _ | .xorRR _ _ | .xorRI _ _ | .incR _ | .decR _
  | .notR _ | .mulR _ | .divR _ | .jmp _ | .je _ | .jne _ | .jl _ | .jle _ | .jg _ | .jge _ | .jb _ | .jae _
  | .jbe _ | .ja _ | .loop _ | .hlt | .ret | .int _ => none
  | .movRM d addr | .addRM d addr | .subRM d addr | .cmpRM d addr | .andRM d addr | .orRM d addr
  | .xorRM d addr => some (addr.toNat, d.width)
  | .movRX d idx base | .addRX d idx base | .subRX d idx base | .cmpRX d idx base | .andRX d idx base
  | .orRX d idx base | .xorRX d idx base => some (base.toNat + s.reg idx, d.width)
  | .movMR r addr => some (addr.toNat, r.width)
  | .movXR r idx base => some (base.toNat + s.reg idx, r.width)
  | .movMI addr _ | .incM addr | .decM addr | .notM addr | .mulM addr | .divM addr => some (addr.toNat, .byte)
  | .movXI idx base _ | .incX idx base | .decX idx base | .notX idx base | .mulX idx base
  | .divX idx base => some (base.toNat + s.reg idx, .byte)

/-- Does the instruction store to memory at its effective address (R56)? -/
def stores : Instr → Bool
  | .movMR _ _ | .movXR _ _ _ | .movMI _ _ | .movXI _ _ _ | .incM _ | .incX _ _ | .decM _ | .decX _ _
  | .notM _ | .notX _ _ => true
  | .movRR _ _ | .movRI _ _ | .movRM _ _ | .movRX _ _ _ | .nop | .addRR _ _ | .addRI _ _ | .addRM _ _
  | .addRX _ _ _ | .subRR _ _ | .subRI _ _ | .subRM _ _ | .subRX _ _ _ | .cmpRR _ _ | .cmpRI _ _ | .cmpRM _ _
  | .cmpRX _ _ _ | .andRR _ _ | .andRI _ _ | .andRM _ _ | .andRX _ _ _ | .orRR _ _ | .orRI _ _ | .orRM _ _
  | .orRX _ _ _ | .xorRR _ _ | .xorRI _ _ | .xorRM _ _ | .xorRX _ _ _ | .incR _ | .decR _ | .notR _ | .mulR _
  | .mulM _ | .mulX _ _ | .divR _ | .divM _ | .divX _ _ | .jmp _ | .je _ | .jne _ | .jl _ | .jle _ | .jg _
  | .jge _ | .jb _ | .jae _ | .jbe _ | .ja _ | .loop _ | .hlt | .ret | .int _ => false

/-- The dividend of a DIV at width `w` (spec/42_mul_div.md R182): AX, or DX:AX. -/
def dividend (w : Width) (s : State) : Nat :=
  match w with
  | .byte => s.reg .ax
  | .word => s.reg .dx * 65536 + s.reg .ax

/-- The dividend, the divisor and the largest quotient that fits, of a DIV (R182, R185, R186); none for every other
instruction. -/
def divideOperands (i : Instr) (s : State) : Option (Nat × Nat × Nat) :=
  match i with
  | .divR r => some (dividend r.width s, s.reg r, 2 ^ r.width.bits - 1)
  | .divM addr => some (dividend .byte s, (s.mem.read addr.toNat).toNat, 2 ^ Width.byte.bits - 1)
  | .divX idx base =>
    some (dividend .byte s, (s.mem.read (base.toNat + s.reg idx)).toNat, 2 ^ Width.byte.bits - 1)
  | .movRR _ _ | .movRI _ _ | .movRM _ _ | .movRX _ _ _ | .movMR _ _ | .movXR _ _ _ | .movMI _ _
  | .movXI _ _ _ | .nop | .addRR _ _ | .addRI _ _ | .addRM _ _ | .addRX _ _ _ | .subRR _ _ | .subRI _ _
  | .subRM _ _ | .subRX _ _ _ | .cmpRR _ _ | .cmpRI _ _ | .cmpRM _ _ | .cmpRX _ _ _ | .andRR _ _ | .andRI _ _
  | .andRM _ _ | .andRX _ _ _ | .orRR _ _ | .orRI _ _ | .orRM _ _ | .orRX _ _ _ | .xorRR _ _ | .xorRI _ _
  | .xorRM _ _ | .xorRX _ _ _ | .incR _ | .incM _ | .incX _ _ | .decR _ | .decM _ | .decX _ _ | .notR _
  | .notM _ | .notX _ _ | .mulR _ | .mulM _ | .mulX _ _ | .jmp _ | .je _ | .jne _ | .jl _ | .jle _ | .jg _
  | .jge _ | .jb _ | .jae _ | .jbe _ | .ja _ | .loop _ | .hlt | .ret | .int _ => none

/-- The instruction reads or writes beyond 0xFFFF: its data access reaches there, or it is INT 21h with AH = 0x09 and
no `$` stands from DX to 0xFFFF (R51, R52, spec/44_system.md R224). -/
def accessFaults (i : Instr) (s : State) : Prop :=
  (∃ a w, dataAccess i s = some (a, w) ∧ 0x10000 < a + w.bytes) ∨
    (i = .int 0x21#8 ∧ s.reg .ah = 0x09 ∧ ∀ a, s.reg .dx ≤ a → a ≤ 0xFFFF → (s.mem.read a).toNat ≠ 0x24)

/-- The instruction is a DIV whose divisor is 0 or whose quotient does not fit (R182). -/
def divideFaultDue (i : Instr) (s : State) : Prop :=
  ∃ n v q, divideOperands i s = some (n, v, q) ∧ (v = 0 ∨ q < n / v)

/-- The bytes `bs` stand in memory from address `a` on. -/
def bytesAt (m : Memory) (a : Nat) (bs : List Byte) : Prop :=
  ∀ k, ∀ h : k < bs.length, m.read (a + k) = bs[k]

/-- Apply `f` to the next state of an outcome. -/
def mapNext (f : State → State) : Result → Result
  | .next t => .next (f t)
  | .fault r => .fault r
  | .refused r => .refused r

/-- `s` with other contents of its dead state: the segment registers, and PF, AF, TF, IF and DF (R26, R33). -/
def withDead (g : SegRegs) (f : Flags) (s : State) : State :=
  { s with segs := g, flags := { f with zf := s.flags.zf, sf := s.flags.sf, cf := s.flags.cf, ovf := s.flags.ovf } }

/-- What a MOV to register `d` leaves: the value there, every other register, the flags and memory as before. -/
def movResult (d : RegId) (v : Nat) (s t : State) : Prop :=
  t.reg d = v ∧ regsKeptBut [d] s t ∧ t.flags = s.flags ∧ memKept s t

/-- The four forms of a two-operand instruction with a register destination (R82): from every state, for every
destination, whenever the instruction does not end at or beyond the top of memory and its memory operand lies inside
memory, it completes and leaves what `post` says of the state before, the destination, the source value and the state
after. -/
def registerForms (rr : RegId → RegId → Instr) (ri rm : RegId → Word → Instr) (rx : RegId → RegId → Word → Instr)
    (post : State → RegId → Nat → State → Prop) : Prop :=
  ∀ (s : State) (d : RegId),
    (∀ r, s.ip.toNat + 2 ≤ 0xFFFF →
      completes 2 s (exec (rr d r) s) (post s d (s.reg r % 2 ^ d.width.bits))) ∧
    (∀ imm, s.ip.toNat + 4 ≤ 0xFFFF →
      completes 4 s (exec (ri d imm) s) (post s d (imm.toNat % 2 ^ d.width.bits))) ∧
    (∀ addr, s.ip.toNat + 4 ≤ 0xFFFF → addr.toNat + d.width.bytes ≤ 0x10000 →
      completes 4 s (exec (rm d addr) s) (post s d (valueAt s.mem addr.toNat d.width))) ∧
    (∀ idx base, s.ip.toNat + 5 ≤ 0xFFFF → base.toNat + s.reg idx + d.width.bytes ≤ 0x10000 →
      completes 5 s (exec (rx d idx base) s) (post s d (valueAt s.mem (base.toNat + s.reg idx) d.width)))

/-- The two forms of an instruction on one byte of memory (R56): they complete and leave what `post` says of the state
before, the effective address and the state after. -/
def byteForms (direct : Word → Instr) (indexed : RegId → Word → Instr) (post : State → Nat → State → Prop) : Prop :=
  ∀ s : State,
    (∀ addr, s.ip.toNat + 3 ≤ 0xFFFF → completes 3 s (exec (direct addr) s) (post s addr.toNat)) ∧
    (∀ idx base, s.ip.toNat + 4 ≤ 0xFFFF → base.toNat + s.reg idx ≤ 0xFFFF →
      completes 4 s (exec (indexed idx base) s) (post s (base.toNat + s.reg idx)))

/-- The flags after a MUL of width w with product `p` (R181): those of `p` at w bits under `Operand`, at 2w bits under
`Product`. -/
def mulFlags (w : Width) (p : Nat) (s t : State) : Prop :=
  (s.config.mulFlagWidth = .operand → flagsOfRaw s t p w.bits) ∧
    (s.config.mulFlagWidth = .product → flagsOfRaw s t p (2 * w.bits))

/-- What an 8-bit MUL by `m` leaves (R181): the product in AX, DX and all other registers as before. -/
def mulByteResult (m : Nat) (s t : State) : Prop :=
  t.reg .ax = s.reg .al * m ∧ regsKeptBut [.ax] s t ∧ mulFlags .byte (s.reg .al * m) s t ∧ memKept s t

/-- What a successful DIV leaves of the flags (R182): ZF, SF and CF are the draw, whatever its value; the others are as
before. -/
def divFlagsDrawn (s t : State) : Prop :=
  (t.flags.zf, t.flags.sf, t.flags.cf) = Config.divFlags s.draws ∧ inertFlagsKept s t

/-- What a successful 8-bit DIV by `v` leaves (R182). -/
def divByteResult (v : Nat) (s t : State) : Prop :=
  t.reg .al = s.reg .ax / v ∧ t.reg .ah = s.reg .ax % v ∧ regsKeptBut [.al, .ah] s t ∧ divFlagsDrawn s t ∧ memKept s t

/-- What a store of `v` at width `w` to address `a` leaves: the value there (where the memory before is in canonical
form, which `State.Inv` says of every state a run reaches), every other byte of memory and every register as before.
The flags are said beside it. -/
def storeResult (a : Nat) (w : Width) (v : Int) (s t : State) : Prop :=
  (s.mem.wf = true → (valueAt t.mem a w : Int) = v % 2 ^ w.bits) ∧ memKeptBut a w.bytes s t ∧ t.regs = s.regs

/-- The outcome of a divide fault (R243): the fault mark is set, nothing else is different but IP, which is the address
after the `len` bytes of the instruction where that is an address. -/
def divideFaults (c : FaultCode) (len : Nat) (s : State) (o : Result) : Prop :=
  ∃ t, o = .next t ∧ t.fault = some c ∧ t.output = none ∧ t.regs = s.regs ∧ t.segs = s.segs ∧ t.flags = s.flags ∧
    t.mem = s.mem ∧ t.halted = s.halted ∧ t.config = s.config ∧
    (s.ip.toNat + len ≤ 0xFFFF → t.ip.toNat = s.ip.toNat + len)

end Sys2Proof.Machine
end

