-- ==== Sys2Proof/Certificates/Slice0/Obligations.lean ====
section
/-! DEFINITION. The statements about the machine, for the provers. Each formalises rules of spec/ that its docstring
names. -/

open Sys2Proof Sys2Proof.Machine

/-! ### Reset, load, the run model -/

/-- R271 of 70_reset_and_hazards.md: `new_state()`, for every setting of the parameters; the core part at the standard
setting is the model's reset state. Rests on the spec's own decisions D17, D22, D27 (92_eei_decisions.md). -/
def Obligations.NewStateHoldsInitialValues : Prop :=
  (∀ c : Config,
    (newState c).core.regs = { ax := 0, bx := 0, cx := 0, dx := 0, sp := 0xFFFE#16, bp := 0, si := 0, di := 0 } ∧
    (newState c).core.segs = { cs := 0, ds := 0, es := 0, ss := 0 } ∧ (newState c).core.ip = 0x100#16 ∧
    (newState c).core.flags = { cf := false, pf := false, af := false, zf := false, sf := false, tf := false,
                                ief := false, df := false, ovf := false } ∧
    (∀ a, (newState c).core.mem.read a = 0) ∧ (newState c).core.halted = false ∧ (newState c).core.fault = none ∧
    (newState c).status = .idle ∧ (newState c).error = none ∧ (newState c).log = []) ∧
  (newState Config.standard).core = State.reset

/-- R272, and the row of `load` in R276 (status `idle`, error none): `load` from any state. Rests on the spec's own
decisions D19, D22, D27 (92_eei_decisions.md). -/
def Obligations.LoadCopiesTheWholeImage : Prop :=
  ∀ (h : HostState) (image : List Byte) (entry : Word), image.length = 0x10000 →
    (∀ a, ∀ ha : a < image.length, (hostLoad h image entry).core.mem.read a = image[a]) ∧
    (hostLoad h image entry).core.ip = entry ∧ (hostLoad h image entry).core.runnable ∧
    (hostLoad h image entry).status = .idle ∧ (hostLoad h image entry).error = none ∧
    (hostLoad h image entry).core.regs = h.core.regs ∧ (hostLoad h image entry).core.segs = h.core.segs ∧
    (hostLoad h image entry).core.flags = h.core.flags

/-- R270: the state after reset with an image, and the first fetch. Rests on the spec's own decisions D17, D19, D22,
D29 (92_eei_decisions.md). -/
def Obligations.ResetStartsAtTheEntry : Prop :=
  Config.standard.entry = 0x100#16 ∧
  ∀ (c : Config) (image : List Byte), image.length = 0x10000 →
    (resetWith c image).regs = { ax := 0, bx := 0, cx := 0, dx := 0, sp := 0xFFFE#16, bp := 0, si := 0, di := 0 } ∧
    (resetWith c image).segs = { cs := 0, ds := 0, es := 0, ss := 0 } ∧
    (resetWith c image).ip = c.entry ∧ (resetWith c image).flags = Flags.clear ∧
    (∀ a, ∀ ha : a < image.length, (resetWith c image).mem.read a = image[a]) ∧
    (resetWith c image).halted = false ∧ (resetWith c image).fault = none ∧
    (fetchBytes (resetWith c image)).head? = image[c.entry.toNat]?

/-- The reset state meets the invariant. Rests on the spec's own decisions D17 (92_eei_decisions.md). -/
def Obligations.ResetMeetsTheInvariant : Prop := State.reset.Inv

/-- R273, R244: a halted state and a faulted state have no step. That the two stops are `Host.Outcome` faults of these
names is the model's choice (notes/assumptions/5.md). Rests on the spec's own decisions D19 (92_eei_decisions.md). -/
def Obligations.TerminalStatesHaveNoStep : Prop :=
  ∀ s : State, (s.halted = true → step s = .fault .stepWhenHalted) ∧
    (s.halted = false → ∀ c, s.fault = some c → step s = .fault (.stepWhenFaulted c))

/-- R273: every runnable state has a step. That a step which raises a fault answers `next`, with the faulted state of
R243, is the model's choice (notes/assumptions/5.md): R275 lets a step throw the fault instead. -/
def Obligations.RunnableStatesHaveAStep : Prop := ∀ s : State, s.runnable → ∃ t, step s = .next t

/-- R276: what the host does with the result of one step, and that a free run takes no step unless the status is
`running`. That a single step is taken whatever the status, and keeps it where it neither halts nor faults, is the
model's choice (notes/assumptions/21.md), and so is the record around the core (notes/assumptions/12.md); the result
of a step is in the form of notes/assumptions/5.md. Rests on the spec's own decisions D27 (92_eei_decisions.md). -/
def Obligations.HostRecordsEachStep : Prop :=
  ∀ (h : HostState),
    (∀ t, step h.core = .next t → ∃ g, singleStep h = .next g ∧ g.core = t ∧ g.log = h.log ++ t.output.toList ∧
      (∀ c, t.fault = some c → g.status = .error ∧ g.error = some c) ∧
      (t.fault = none → g.error = h.error ∧ (t.halted = true → g.status = .idle) ∧
        (t.halted = false → g.status = h.status))) ∧
    (∀ n, h.status ≠ .running → freeRun n h = .next h)

/-! ### Encoding and fetch -/

/-- A few words written out from the spec's encodings decode to the instructions they stand for. Rests on the spec's
own decisions D2, D3, D4, D5 (92_eei_decisions.md). -/
def Obligations.SpecWordsDecode : Prop :=
  decode [0x10#8, 0x8B#8] = .ok (.movRR .ax .bx, []) ∧
  decode [0x11#8, 0x04#8, 0x09#8, 0x00#8] = .ok (.movRI .ah 9#16, []) ∧
  decode [0x8A#8, 0x00#8, 0x0E#8, 0x0A#8, 0x01#8] = .ok (.movRX .al .si 0x010A#16, []) ∧
  decode [0x89#8, 0x08#8, 0x00#8, 0x02#8] = .ok (.movMR .ax 0x0200#16, []) ∧
  decode [0xC6#8, 0x00#8, 0x03#8, 0x7F#8] = .ok (.movMI 0x0300#16 0x7F#8, []) ∧
  decode [0x38#8, 0x8B#8] = .ok (.cmpRR .ax .bx, []) ∧
  decode [0xA5#8, 0x0E#8, 0x00#8, 0x03#8] = .ok (.incX .si 0x0300#16, []) ∧
  decode [0xF7#8, 0x03#8] = .ok (.divR .bl, []) ∧
  decode [0xE9#8, 0xFD#8, 0x00#8] = .ok (.jmp 0x00FD#16, []) ∧
  decode [0x7C#8, 0x01#8] = .ok (.jl 1#8, []) ∧
  decode [0xCD#8, 0x21#8] = .ok (.int 0x21#8, []) ∧
  decode [0xF4#8] = .ok (.hlt, [])

/-- Decode and encode agree: for every instruction with every operand, and whatever bytes follow it. Rests on the
spec's own decisions D2, D3, D4, D5 (92_eei_decisions.md). -/
def Obligations.DecodeOfEncode : Prop :=
  ∀ (i : Instr) (rest : List Byte), decode (encode i ++ rest) = .ok (i, rest)

/-- Each word has one meaning: what decodes is the encoding of what it decodes to, so no bit is ignored (R87). Rests
on the spec's own decisions D2, D3, D4, D5, D6 (92_eei_decisions.md). -/
def Obligations.EncodeOfDecode : Prop :=
  ∀ (bs : List Byte) (i : Instr) (rest : List Byte), decode bs = .ok (i, rest) → bs = encode i ++ rest

/-- R73: the opcode byte alone fixes the length, 1 to 5 bytes, and exactly that many bytes are read. Rests on the
spec's own decisions D2, D3, D4, D5 (92_eei_decisions.md). -/
def Obligations.OpcodeFixesTheLength : Prop :=
  ∀ (op : Byte) (bs rest : List Byte) (i : Instr), decode (op :: bs) = .ok (i, rest) →
    1 ≤ (encode i).length ∧ (encode i).length ≤ 5 ∧ (op :: bs).length = (encode i).length + rest.length ∧
    ∀ (bs' rest' : List Byte) (j : Instr), decode (op :: bs') = .ok (j, rest') → (encode j).length = (encode i).length

/-- The step runs the instruction that its bytes decode to, and adds nothing around it. -/
def Obligations.StepRunsTheDecodedInstruction : Prop :=
  ∀ (s : State) (i : Instr) (rest : List Byte), s.runnable → decode (fetchBytes s) = .ok (i, rest) → step s = exec i s

/-- The step runs the instruction whose encoding stands in memory at IP (R70, R71, R72). -/
def Obligations.StepRunsTheBytesAtIp : Prop :=
  ∀ (s : State) (i : Instr), s.runnable → s.ip.toNat + (encode i).length ≤ 0x10000 →
    bytesAt s.mem s.ip.toNat (encode i) → step s = exec i s

/-- R85: the 193 unassigned opcode bytes, under both policies. Rests on the spec's own decisions D7, D14, D31
(92_eei_decisions.md). -/
def Obligations.UnassignedOpcodeFollowsThePolicy : Prop :=
  ((List.range 256).filter fun op => opcodeFormat op = none).length = 193 ∧
  ∀ s : State, s.runnable → opcodeFormat (s.mem.read s.ip.toNat).toNat = none →
    (s.config.unknownOpcode = .fault → faultsWith .unknownOpcode s (step s)) ∧
    (s.config.unknownOpcode = .nop → s.ip.toNat + 1 ≤ 0xFFFF →
      step s = .next { s with ip := BitVec.ofNat 16 (s.ip.toNat + 1), output := none }) ∧
    (s.config.unknownOpcode = .nop → s.ip.toNat = 0xFFFF → faultsWith .ipOutOfBounds s (step s))

/-- R79: a `reg` or `idx` byte above 15 raises `UnknownOpcode`, under either policy, with no effect. Rests on the
spec's own decisions D6 (92_eei_decisions.md). -/
def Obligations.RegisterByteAboveFifteenFaults : Prop :=
  ∀ (s : State) (f : Format) (k : Nat), s.runnable → opcodeFormat (s.mem.read s.ip.toNat).toNat = some f →
    s.ip.toNat + formatLength f ≤ 0x10000 → k ∈ regByteOffsets f → 15 < (s.mem.read (s.ip.toNat + k)).toNat →
    faultsWith .unknownOpcode s (step s)

/-- R71: an instruction with a byte beyond 0xFFFF raises `IpOutOfBounds`, whatever its register bytes are (R245).
Rests on the spec's own decisions D14 (92_eei_decisions.md). -/
def Obligations.OperandFetchPastTheEndFaults : Prop :=
  ∀ (s : State) (f : Format), s.runnable → opcodeFormat (s.mem.read s.ip.toNat).toNat = some f →
    0x10000 < s.ip.toNat + formatLength f → faultsWith .ipOutOfBounds s (step s)

/-! ### Registers, flags, memory -/

/-- The value of every register id (R22 of 10_state.md). Which bits of its parent a half register occupies is general
knowledge that the spec marks as such in R21 (93_implementation_defined.md K1; notes/assumptions/10.md, PRESUMED). -/
def Obligations.RegisterReadById : Prop :=
  ∀ s : State,
    s.reg .al = s.regs.ax.toNat % 256 ∧ s.reg .cl = s.regs.cx.toNat % 256 ∧
    s.reg .dl = s.regs.dx.toNat % 256 ∧ s.reg .bl = s.regs.bx.toNat % 256 ∧
    s.reg .ah = s.regs.ax.toNat / 256 ∧ s.reg .ch = s.regs.cx.toNat / 256 ∧
    s.reg .dh = s.regs.dx.toNat / 256 ∧ s.reg .bh = s.regs.bx.toNat / 256 ∧
    s.reg .ax = s.regs.ax.toNat ∧ s.reg .cx = s.regs.cx.toNat ∧ s.reg .dx = s.regs.dx.toNat ∧
    s.reg .bx = s.regs.bx.toNat ∧ s.reg .sp = s.regs.sp.toNat ∧ s.reg .bp = s.regs.bp.toNat ∧
    s.reg .si = s.regs.si.toNat ∧ s.reg .di = s.regs.di.toNat ∧
    ∀ r : RegId, s.reg r < 2 ^ r.width.bits

/-- R23: a write is truncated to the register's width, keeps the other half, and touches nothing else. -/
def Obligations.RegisterWriteById : Prop :=
  ∀ (s : State) (r : RegId) (v : Int),
    ((s.setReg r v).reg r : Int) = v % 2 ^ r.width.bits ∧ regsKeptBut [r] s (s.setReg r v) ∧
    s.setReg r v = { s with regs := (s.setReg r v).regs }

/-- R31: `SetFlags(raw, w)` at both widths. -/
def Obligations.SetFlagsFromTheRawResult : Prop :=
  ∀ (s : State) (raw : Int) (w : Width),
    flagsOfRaw s (s.setFlags raw w.bits) raw w.bits ∧
    s.setFlags raw w.bits = { s with flags := (s.setFlags raw w.bits).flags }

/-- R51 of 20_memory.md: `MemRead`. -/
def Obligations.MemoryRead : Prop :=
  ∀ (s : State) (a : Nat),
    s.memRead a .byte = (if a ≤ 0xFFFF then some (s.mem.read a).toNat else none) ∧
    s.memRead a .word =
      (if a + 1 ≤ 0xFFFF then some ((s.mem.read a).toNat + 256 * (s.mem.read (a + 1)).toNat) else none)

/-- R52: `MemWrite`, of any integer, in every state whose memory is in canonical form. -/
def Obligations.MemoryWrite : Prop :=
  ∀ (s : State) (a : Nat) (v : Int), s.mem.wf = true →
    (a ≤ 0xFFFF → ∃ t, s.memWrite a .byte v = some t ∧ ((t.mem.read a).toNat : Int) = v % 256 ∧
      memKeptBut a 1 s t ∧ t = { s with mem := t.mem }) ∧
    (0xFFFF < a → s.memWrite a .byte v = none) ∧
    (a + 1 ≤ 0xFFFF → ∃ t, s.memWrite a .word v = some t ∧ ((t.mem.read a).toNat : Int) = v % 256 ∧
      ((t.mem.read (a + 1)).toNat : Int) = v / 256 % 256 ∧ memKeptBut a 2 s t ∧ t = { s with mem := t.mem }) ∧
    (0xFFFF < a + 1 → s.memWrite a .word v = none)

/-- R54: the mixed-width views of memory. -/
def Obligations.MixedWidthViewsAgree : Prop :=
  ∀ (s : State) (a : Nat), s.mem.wf = true → a + 1 ≤ 0xFFFF →
    (∀ (v : Nat) (t : State), v ≤ 0xFFFF → s.memWrite a .word v = some t →
      t.memRead (a + 1) .byte = some (v / 256) ∧ t.memRead a .byte = some (v % 256)) ∧
    (∀ (b0 b1 : Nat) (t u : State), b0 ≤ 0xFF → b1 ≤ 0xFF → s.memWrite a .byte b0 = some t →
      t.memWrite (a + 1) .byte b1 = some u → u.memRead a .word = some (b1 * 256 + b0))

/-! ### The machine as a whole -/

/-- Every step keeps the invariant. Rests on the spec's own decisions D17, D18 (92_eei_decisions.md). -/
def Obligations.EveryStepKeepsTheInvariant : Prop :=
  ∀ s t : State, s.Inv → step s = .next t → t.Inv

/-- R26, R33: no step reads or writes the segment registers, PF, AF, TF, IF or DF. Running from other contents of them
gives the same outcome with those contents; and they are 0 and false at reset. The two steps compared start with equal
`draws`, so that the flags after DIV, and IP after a divide fault whose instruction ends at 0x10000, are equal is the
model's choice (notes/assumptions/1.md, notes/assumptions/2.md): the spec leaves both values free in each step. Rests
on the spec's own decisions D12, D15, D17 (92_eei_decisions.md). -/
def Obligations.DeadStateIsNeverReadOrWritten : Prop :=
  (∀ (s : State) (g : SegRegs) (f : Flags), step (withDead g f s) = mapNext (withDead g f) (step s)) ∧
  State.reset.segs = { cs := 0, ds := 0, es := 0, ss := 0 } ∧ State.reset.flags.pf = false ∧
  State.reset.flags.af = false ∧ State.reset.flags.tf = false ∧ State.reset.flags.ief = false ∧
  State.reset.flags.df = false

/-- R32: no step writes OF, which is false at reset. Rests on the spec's own decisions D17, D18 (92_eei_decisions.md).
-/
def Obligations.OverflowFlagIsNeverWritten : Prop :=
  State.reset.flags.ovf = false ∧ ∀ s t : State, step s = .next t → t.flags.ovf = s.flags.ovf

/-- R30: the instructions outside its table leave all nine flags; those in it leave the six flags it does not name.
Rests on the spec's own decisions D11, D12 (92_eei_decisions.md). -/
def Obligations.OnlyTheListedInstructionsWriteFlags : Prop :=
  ∀ (i : Instr) (s t : State), exec i s = .next t →
    (writesFlags i = false → t.flags = s.flags) ∧ inertFlagsKept s t

/-- R243: the faulted state of a step from a runnable state. Item (d), an IP that the rule leaves free, is the case in
which nothing is said of IP. Rests on the spec's own decisions D15 (92_eei_decisions.md). -/
def Obligations.FaultingStepCommitsNothing : Prop :=
  ∀ (s t : State) (c : FaultCode), s.runnable → step s = .next t → t.fault = some c →
    t.regs = s.regs ∧ t.segs = s.segs ∧ t.flags = s.flags ∧ t.mem = s.mem ∧ t.halted = s.halted ∧
    t.config = s.config ∧ t.output = none ∧
    (c ≠ .divideByZero ∧ c ≠ .divideOverflow → t.ip = s.ip) ∧
    (c = .divideByZero ∨ c = .divideOverflow → ∃ i rest, decode (fetchBytes s) = .ok (i, rest) ∧
      (s.ip.toNat + (encode i).length ≤ 0xFFFF → t.ip.toNat = s.ip.toNat + (encode i).length))

/-- R255: HLT is the only stop state's way in. Rests on the spec's own decisions D19 (92_eei_decisions.md). -/
def Obligations.OnlyHltHalts : Prop :=
  ∀ s t : State, s.runnable → step s = .next t → t.halted = true → s.mem.read s.ip.toNat = 0xF4#8

/-- R226, R252: the output channel is reached only by the two services of INT 21h. -/
def Obligations.OnlyInt21hEmits : Prop :=
  ∀ (s t : State) (out : List Byte), s.runnable → step s = .next t → t.output = some out →
    s.mem.read s.ip.toNat = 0xCD#8 ∧ s.mem.read (s.ip.toNat + 1) = 0x21#8 ∧ (s.reg .ah = 2 ∨ s.reg .ah = 9)

/-- R28, R73: an instruction that does not transfer control and does not fault leaves IP just past its last byte. -/
def Obligations.IpAdvancesByTheEncodedLength : Prop :=
  ∀ (i : Instr) (s t : State), exec i s = .next t → transfersControl i = false → t.fault = none →
    t.ip.toNat = s.ip.toNat + (encode i).length

/-- R74: an instruction that does not transfer control and whose end is at or beyond 0x10000 faults, and commits
nothing. The fault is `IpOutOfBounds`, with IP at the instruction, unless a fault that R245 puts before it applies: an
access beyond memory (an unterminated string of INT 21h among them) or a divide fault. Rests on the spec's own
decisions D14, D15, D16, D20, D28 (92_eei_decisions.md). -/
def Obligations.FallingOffTheEndFaults : Prop :=
  ∀ (i : Instr) (s : State), transfersControl i = false → 0xFFFF < s.ip.toNat + (encode i).length →
    (∃ t c, exec i s = .next t ∧ t.fault = some c ∧ t.regs = s.regs ∧ t.segs = s.segs ∧ t.flags = s.flags ∧
      t.mem = s.mem ∧ t.halted = s.halted ∧ t.output = none) ∧
    (¬ accessFaults i s → ¬ divideFaultDue i s → faultsWith .ipOutOfBounds s (exec i s))

/-- The memory frame of every instruction: where it stores, no byte outside the bytes of its access changes; where it
stores nothing, no byte changes (R56). Rests on the spec's own decisions D9, D10 (92_eei_decisions.md). -/
def Obligations.MemoryChangesOnlyWhereItIsStored : Prop :=
  ∀ (i : Instr) (s t : State), exec i s = .next t →
    (stores i = false → memKept s t) ∧
    (∀ a w, dataAccess i s = some (a, w) → memKeptBut a w.bytes s t)

/-- R51, R52, R56, R80: a data access with a byte beyond 0xFFFF raises `MemoryOutOfBounds`, for every form that
accesses memory; nothing commits, and IP stays at the instruction (R243). Rests on the spec's own decisions D9, D10,
D35 (92_eei_decisions.md). -/
def Obligations.AccessBeyondMemoryFaults : Prop :=
  ∀ (i : Instr) (s : State) (a : Nat) (w : Width), dataAccess i s = some (a, w) → 0x10000 < a + w.bytes →
    faultsWith .memoryOutOfBounds s (exec i s)

/-! ### Data transfer -/

/-- MOV to a register, four forms (R110 to R114). Rests on the spec's own decisions D8 (92_eei_decisions.md). -/
def Obligations.MovToRegisterResult : Prop :=
  registerForms .movRR .movRI .movRM .movRX fun s d v t => movResult d v s t

/-- MOV to memory, four forms (R110, R115 to R118). Rests on the spec's own decisions D4, D9 (92_eei_decisions.md). -/
def Obligations.MovToMemoryResult : Prop :=
  ∀ s : State,
    (∀ r addr, s.ip.toNat + 4 ≤ 0xFFFF → addr.toNat + r.width.bytes ≤ 0x10000 →
      completes 4 s (exec (.movMR r addr) s) fun t =>
        storeResult addr.toNat r.width (s.reg r) s t ∧ t.flags = s.flags) ∧
    (∀ r idx base, s.ip.toNat + 5 ≤ 0xFFFF → base.toNat + s.reg idx + r.width.bytes ≤ 0x10000 →
      completes 5 s (exec (.movXR r idx base) s) fun t =>
        storeResult (base.toNat + s.reg idx) r.width (s.reg r) s t ∧ t.flags = s.flags) ∧
    (∀ addr imm, s.ip.toNat + 4 ≤ 0xFFFF →
      completes 4 s (exec (.movMI addr imm) s) fun t =>
        storeResult addr.toNat .byte imm.toNat s t ∧ t.flags = s.flags) ∧
    (∀ idx base imm, s.ip.toNat + 5 ≤ 0xFFFF → base.toNat + s.reg idx ≤ 0xFFFF →
      completes 5 s (exec (.movXI idx base imm) s) fun t =>
        storeResult (base.toNat + s.reg idx) .byte imm.toNat s t ∧ t.flags = s.flags)

/-- R119 of 40_data_transfer.md, NOP, and R221 of 44_system.md, RET: no effect but on IP; 0x90 is NOP only (R86), and
the fall-through beyond 0xFFFF faults (R74). Rests on the spec's own decisions D14, D30 (92_eei_decisions.md). -/
def Obligations.NopAndRetHaveNoEffect : Prop :=
  encode .nop = [0x90#8] ∧ encode .ret = [0xC3#8] ∧
  (∀ rest : List Byte, decode (0x90#8 :: rest) = .ok (.nop, rest)) ∧
  ∀ (s : State) (i : Instr), i = .nop ∨ i = .ret →
    (s.ip.toNat ≠ 0xFFFF →
      exec i s = .next { s with ip := BitVec.ofNat 16 (s.ip.toNat + 1), output := none }) ∧
    (s.ip.toNat = 0xFFFF → faultsWith .ipOutOfBounds s (exec i s))

/-! ### Arithmetic and logic -/

/-- ADD, four forms (R130 to R135). Rests on the spec's own decisions D8, D9 (92_eei_decisions.md). -/
def Obligations.AddResult : Prop :=
  registerForms .addRR .addRI .addRM .addRX fun s d v t => regResult d ((s.reg d : Int) + v) s t

/-- SUB, four forms (R130, R131, R136 to R139). Rests on the spec's own decisions D8, D9 (92_eei_decisions.md). -/
def Obligations.SubResult : Prop :=
  registerForms .subRR .subRI .subRM .subRX fun s d v t => regResult d ((s.reg d : Int) - v) s t

/-- CMP, four forms (R130, R131, R140 to R143): the flags of SUB, no register written. Rests on the spec's own
decisions D8, D9 (92_eei_decisions.md). -/
def Obligations.CmpResult : Prop :=
  registerForms .cmpRR .cmpRI .cmpRM .cmpRX fun s d v t =>
    t.regs = s.regs ∧ flagsOfRaw s t ((s.reg d : Int) - v) d.width.bits ∧ memKept s t

/-- AND, four forms (R130, R131, R144 to R147): CF is cleared. Rests on the spec's own decisions D8, D9
(92_eei_decisions.md). -/
def Obligations.AndResult : Prop :=
  registerForms .andRR .andRI .andRM .andRX fun s d v t =>
    regResult d ((s.reg d &&& v : Nat) : Int) s t ∧ t.flags.cf = false

/-- OR, four forms (R130, R131, R148 to R151): CF is cleared. Rests on the spec's own decisions D8, D9
(92_eei_decisions.md). -/
def Obligations.OrResult : Prop :=
  registerForms .orRR .orRI .orRM .orRX fun s d v t =>
    regResult d ((s.reg d ||| v : Nat) : Int) s t ∧ t.flags.cf = false

/-- XOR, four forms (R130, R131, R152 to R155): CF is cleared. Rests on the spec's own decisions D8, D9
(92_eei_decisions.md). -/
def Obligations.XorResult : Prop :=
  registerForms .xorRR .xorRI .xorRM .xorRX fun s d v t =>
    regResult d ((s.reg d ^^^ v : Nat) : Int) s t ∧ t.flags.cf = false

/-- INC and DEC of a register (R156, R157, R158), with the exact conditions on CF. Rests on the spec's own decisions
D5 (92_eei_decisions.md). -/
def Obligations.IncDecRegisterResult : Prop :=
  ∀ (s : State) (r : RegId), s.ip.toNat + 2 ≤ 0xFFFF →
    (completes 2 s (exec (.incR r) s) fun t =>
      regResult r ((s.reg r : Int) + 1) s t ∧ (t.flags.cf = true ↔ s.reg r = 2 ^ r.width.bits - 1)) ∧
    (completes 2 s (exec (.decR r) s) fun t =>
      regResult r ((s.reg r : Int) - 1) s t ∧ (t.flags.cf = true ↔ s.reg r = 0))

/-- NOT of a register (R156, R159): the value is 2^w - 1 less the old one, and no flag changes. Rests on the spec's
own decisions D5 (92_eei_decisions.md). -/
def Obligations.NotRegisterResult : Prop :=
  ∀ (s : State) (r : RegId), s.ip.toNat + 2 ≤ 0xFFFF →
    completes 2 s (exec (.notR r) s) fun t =>
      t.reg r = 2 ^ r.width.bits - 1 - s.reg r ∧ regsKeptBut [r] s t ∧ t.flags = s.flags ∧ memKept s t

/-- INC of a byte of memory (R156, R160, R161). Rests on the spec's own decisions D2, D5, D10 (92_eei_decisions.md).
-/
def Obligations.IncMemoryResult : Prop :=
  byteForms .incM .incX fun s a t =>
    storeResult a .byte ((s.mem.read a).toNat + 1) s t ∧ flagsOfRaw s t ((s.mem.read a).toNat + 1) 8

/-- DEC of a byte of memory (R156, R162, R163). Rests on the spec's own decisions D2, D5, D10 (92_eei_decisions.md).
-/
def Obligations.DecMemoryResult : Prop :=
  byteForms .decM .decX fun s a t =>
    storeResult a .byte ((s.mem.read a).toNat - 1) s t ∧ flagsOfRaw s t ((s.mem.read a).toNat - 1) 8

/-- NOT of a byte of memory (R156, R164, R165): no flag changes. Rests on the spec's own decisions D2, D5, D10
(92_eei_decisions.md). -/
def Obligations.NotMemoryResult : Prop :=
  byteForms .notM .notX fun s a t =>
    storeResult a .byte (255 - (s.mem.read a).toNat) s t ∧ t.flags = s.flags

/-! ### Multiply and divide -/

/-- MUL by a register (R180, R181), both widths and both flag widths. Rests on the spec's own decisions D5, D11
(92_eei_decisions.md). -/
def Obligations.MulRegisterResult : Prop :=
  ∀ (s : State) (r : RegId), s.ip.toNat + 2 ≤ 0xFFFF →
    (r.width = .byte → completes 2 s (exec (.mulR r) s) (mulByteResult (s.reg r) s)) ∧
    (r.width = .word → completes 2 s (exec (.mulR r) s) fun t =>
      t.reg .dx * 65536 + t.reg .ax = s.reg .ax * s.reg r ∧ regsKeptBut [.ax, .dx] s t ∧
      mulFlags .word (s.reg .ax * s.reg r) s t ∧ memKept s t)

/-- MUL by a byte of memory (R180, R183, R184). Rests on the spec's own decisions D2, D5, D10, D11
(92_eei_decisions.md). -/
def Obligations.MulMemoryResult : Prop :=
  byteForms .mulM .mulX fun s a t => mulByteResult (s.mem.read a).toNat s t

/-- DIV by a register where neither divide fault applies (R180, R182), both widths. The flags are the draw, whatever
its value. Rests on the spec's own decisions D5, D12, D28 (92_eei_decisions.md). -/
def Obligations.DivRegisterResult : Prop :=
  ∀ (s : State) (r : RegId), s.ip.toNat + 2 ≤ 0xFFFF → s.reg r ≠ 0 →
    (r.width = .byte → s.reg .ax / s.reg r ≤ 0xFF →
      completes 2 s (exec (.divR r) s) (divByteResult (s.reg r) s)) ∧
    (r.width = .word → (s.reg .dx * 65536 + s.reg .ax) / s.reg r ≤ 0xFFFF →
      completes 2 s (exec (.divR r) s) fun t =>
        t.reg .ax = (s.reg .dx * 65536 + s.reg .ax) / s.reg r ∧
        t.reg .dx = (s.reg .dx * 65536 + s.reg .ax) % s.reg r ∧
        regsKeptBut [.ax, .dx] s t ∧ divFlagsDrawn s t ∧ memKept s t)

/-- DIV by a byte of memory where no fault applies (R180, R185, R186). Rests on the spec's own decisions D2, D5, D10,
D12, D28 (92_eei_decisions.md). -/
def Obligations.DivMemoryResult : Prop :=
  ∀ s : State,
    (∀ addr, s.ip.toNat + 3 ≤ 0xFFFF → (s.mem.read addr.toNat).toNat ≠ 0 →
      s.reg .ax / (s.mem.read addr.toNat).toNat ≤ 0xFF →
      completes 3 s (exec (.divM addr) s) (divByteResult (s.mem.read addr.toNat).toNat s)) ∧
    (∀ idx base, s.ip.toNat + 4 ≤ 0xFFFF → base.toNat + s.reg idx ≤ 0xFFFF →
      (s.mem.read (base.toNat + s.reg idx)).toNat ≠ 0 →
      s.reg .ax / (s.mem.read (base.toNat + s.reg idx)).toNat ≤ 0xFF →
      completes 4 s (exec (.divX idx base) s) (divByteResult (s.mem.read (base.toNat + s.reg idx)).toNat s))

/-- The divide faults of every DIV form (R180, R182, R185, R186, R243): divisor 0 is checked first, then the quotient;
both before the final IP (R245), so no hypothesis on IP stands here. Rests on the spec's own decisions D10, D15, D28
(92_eei_decisions.md). -/
def Obligations.DivideFaultsAreTaken : Prop :=
  ∀ s : State,
    (∀ r, s.reg r = 0 → divideFaults .divideByZero 2 s (exec (.divR r) s)) ∧
    (∀ r, r.width = .byte → s.reg r ≠ 0 → 0xFF < s.reg .ax / s.reg r →
      divideFaults .divideOverflow 2 s (exec (.divR r) s)) ∧
    (∀ r, r.width = .word → s.reg r ≠ 0 → 0xFFFF < (s.reg .dx * 65536 + s.reg .ax) / s.reg r →
      divideFaults .divideOverflow 2 s (exec (.divR r) s)) ∧
    (∀ addr, (s.mem.read addr.toNat).toNat = 0 → divideFaults .divideByZero 3 s (exec (.divM addr) s)) ∧
    (∀ addr, (s.mem.read addr.toNat).toNat ≠ 0 → 0xFF < s.reg .ax / (s.mem.read addr.toNat).toNat →
      divideFaults .divideOverflow 3 s (exec (.divM addr) s)) ∧
    (∀ idx base, base.toNat + s.reg idx ≤ 0xFFFF → (s.mem.read (base.toNat + s.reg idx)).toNat = 0 →
      divideFaults .divideByZero 4 s (exec (.divX idx base) s)) ∧
    (∀ idx base, base.toNat + s.reg idx ≤ 0xFFFF → (s.mem.read (base.toNat + s.reg idx)).toNat ≠ 0 →
      0xFF < s.reg .ax / (s.mem.read (base.toNat + s.reg idx)).toNat →
      divideFaults .divideOverflow 4 s (exec (.divX idx base) s))

/-- `DIV DX` never completes: with DX = 0 it raises `DivideByZero`, otherwise `DivideOverflow` (R182). Rests on the
spec's own decisions D15, D28 (92_eei_decisions.md). -/
def Obligations.DivByDxAlwaysFaults : Prop :=
  ∀ s : State,
    divideFaults (if s.reg .dx = 0 then .divideByZero else .divideOverflow) 2 s (exec (.divR .dx) s)

/-! ### Control transfer -/

/-- R202: JMP. Rests on the spec's own decisions D14 (92_eei_decisions.md). -/
def Obligations.JmpResult : Prop :=
  ∀ (s : State) (disp : Word),
    encode (.jmp disp) = [0xE9#8, lowByte disp, highByte disp] ∧
    (0 ≤ (s.ip.toNat : Int) + 3 + disp.toInt → (s.ip.toNat : Int) + 3 + disp.toInt ≤ 0xFFFF →
      ∃ t, exec (.jmp disp) s = .next t ∧ (t.ip.toNat : Int) = (s.ip.toNat : Int) + 3 + disp.toInt ∧
        t = { s with ip := t.ip, output := none }) ∧
    ((s.ip.toNat : Int) + 3 + disp.toInt < 0 ∨ 0xFFFF < (s.ip.toNat : Int) + 3 + disp.toInt →
      faultsWith .ipOutOfBounds s (exec (.jmp disp) s)) ∧
    (s.runnable → s.mem.read s.ip.toNat = 0xE9#8 → 0xFFFF < s.ip.toNat + 2 → faultsWith .ipOutOfBounds s (step s))

/-- R204 to R213: the ten conditional jumps, each with its opcode byte and its condition over ZF, SF, OF and CF. That
a jump not taken at 0xFFFE faults follows R204 to R213, R28 and R74 against R203, which says that a jump faults on its
target only when taken (notes/assumptions/17.md, DEDUCED). Rests on the spec's own decisions D3, D14
(92_eei_decisions.md). -/
def Obligations.ConditionalJumpResult : Prop :=
  ∀ (s : State) (disp : Byte) (op : Byte) (i : Instr) (cond : Bool),
    (op, i, cond) ∈
      [(0x74#8, Instr.je disp, s.flags.zf), (0x75#8, .jne disp, !s.flags.zf),
       (0x7C#8, .jl disp, s.flags.sf != s.flags.ovf), (0x7E#8, .jle disp, s.flags.zf || s.flags.sf != s.flags.ovf),
       (0x7F#8, .jg disp, !s.flags.zf && s.flags.sf == s.flags.ovf), (0x7D#8, .jge disp, s.flags.sf == s.flags.ovf),
       (0x72#8, .jb disp, s.flags.cf), (0x76#8, .jbe disp, s.flags.cf || s.flags.zf),
       (0x77#8, .ja disp, !s.flags.cf && !s.flags.zf), (0x73#8, .jae disp, !s.flags.cf)] →
    ∀ next : Int, next = (if cond then (s.ip.toNat : Int) + 2 + disp.toInt else (s.ip.toNat : Int) + 2) →
    encode i = [op, disp] ∧
    (0 ≤ next → next ≤ 0xFFFF →
      ∃ t, exec i s = .next t ∧ (t.ip.toNat : Int) = next ∧ t = { s with ip := t.ip, output := none }) ∧
    (next < 0 ∨ 0xFFFF < next → faultsWith .ipOutOfBounds s (exec i s)) ∧
    (s.runnable → s.mem.read s.ip.toNat = op → 0xFFFF < s.ip.toNat + 1 → faultsWith .ipOutOfBounds s (step s))

/-- R214: LOOP. Rests on the spec's own decisions D14, D15 (92_eei_decisions.md). -/
def Obligations.LoopResult : Prop :=
  ∀ (s : State) (disp : Byte) (c : Nat) (next : Int), c = (s.reg .cx + 0xFFFF) % 0x10000 →
    next = (if c ≠ 0 then (s.ip.toNat : Int) + 2 + disp.toInt else (s.ip.toNat : Int) + 2) →
    encode (.loop disp) = [0xE2#8, disp] ∧
    (0 ≤ next → next ≤ 0xFFFF →
      ∃ t, exec (.loop disp) s = .next t ∧ (t.ip.toNat : Int) = next ∧ t.reg .cx = c ∧
        t = { s with regs := { s.regs with cx := t.regs.cx }, ip := t.ip, output := none }) ∧
    (next < 0 ∨ 0xFFFF < next → faultsWith .ipOutOfBounds s (exec (.loop disp) s))

/-! ### System -/

/-- R220: HLT. Rests on the spec's own decisions D14, D19 (92_eei_decisions.md). -/
def Obligations.HltHalts : Prop :=
  encode .hlt = [0xF4#8] ∧
  ∀ s : State,
    (s.ip.toNat ≠ 0xFFFF →
      exec .hlt s = .next { s with ip := BitVec.ofNat 16 (s.ip.toNat + 1), halted := true, output := none } ∧
      step { s with ip := BitVec.ofNat 16 (s.ip.toNat + 1), halted := true, output := none } = .fault .stepWhenHalted) ∧
    (s.ip.toNat = 0xFFFF → faultsWith .ipOutOfBounds s (exec .hlt s))

/-- R223: INT 21h with AH = 0x02. -/
def Obligations.IntEmitsTheCharacter : Prop :=
  ∀ s : State, s.ip.toNat + 2 ≤ 0xFFFF → s.reg .ah = 0x02 →
    ∃ b : Byte, b.toNat = s.reg .dl ∧
      exec (.int 0x21#8) s = .next { s with ip := BitVec.ofNat 16 (s.ip.toNat + 2), output := some [b] }

/-- R224: INT 21h with AH = 0x09. Rests on the spec's own decisions D20 (92_eei_decisions.md). -/
def Obligations.IntEmitsTheString : Prop :=
  ∀ s : State, s.reg .ah = 0x09 →
    (∀ n, s.ip.toNat + 2 ≤ 0xFFFF → s.reg .dx + n ≤ 0xFFFF → (s.mem.read (s.reg .dx + n)).toNat = 0x24 →
      (∀ k, k < n → (s.mem.read (s.reg .dx + k)).toNat ≠ 0x24) →
      exec (.int 0x21#8) s = .next { s with ip := BitVec.ofNat 16 (s.ip.toNat + 2),
                                            output := some ((List.range n).map fun k => s.mem.read (s.reg .dx + k)) }) ∧
    ((∀ a, s.reg .dx ≤ a → a ≤ 0xFFFF → (s.mem.read a).toNat ≠ 0x24) →
      faultsWith .memoryOutOfBounds s (exec (.int 0x21#8) s))

/-- R225: INT with any other service number. -/
def Obligations.IntOfAnotherServiceHasNoEffect : Prop :=
  ∀ (s : State) (n : Byte), s.ip.toNat + 2 ≤ 0xFFFF → (n ≠ 0x21#8 ∨ (s.reg .ah ≠ 0x02 ∧ s.reg .ah ≠ 0x09)) →
    exec (.int n) s = .next { s with ip := BitVec.ofNat 16 (s.ip.toNat + 2), output := none }
end

