-- ==== Sys2Proof/Laws/Words.lean ====
section
/-! SUPPORT. The byte and word helpers in terms of numbers. -/

namespace Sys2Proof

@[simp] theorem lowByte_toNat (w : Word) : (lowByte w).toNat = w.toNat % 256 := by
  simp [lowByte, BitVec.extractLsb'_toNat]

@[simp] theorem highByte_toNat (w : Word) : (highByte w).toNat = w.toNat / 256 := by
  have := w.isLt
  simp only [highByte, BitVec.extractLsb'_toNat, Nat.shiftRight_eq_div_pow]
  omega

theorem append_toNat (hi lo : Byte) : (hi ++ lo : BitVec (8 + 8)).toNat = hi.toNat * 256 + lo.toNat := by
  have := lo.isLt
  rw [BitVec.toNat_append, ← Nat.shiftLeft_add_eq_or_of_lt this, Nat.shiftLeft_eq]

@[simp] theorem wordOf_toNat (lo hi : Byte) : (wordOf lo hi).toNat = lo.toNat + 256 * hi.toNat := by
  have h := append_toNat hi lo
  show (hi ++ lo : BitVec (8 + 8)).toNat = _
  omega

@[simp] theorem lowByte_wordOf (lo hi : Byte) : lowByte (wordOf lo hi) = lo := by
  apply BitVec.eq_of_toNat_eq
  have := lo.isLt
  simp only [lowByte_toNat, wordOf_toNat]
  omega

@[simp] theorem highByte_wordOf (lo hi : Byte) : highByte (wordOf lo hi) = hi := by
  apply BitVec.eq_of_toNat_eq
  have := lo.isLt
  simp only [highByte_toNat, wordOf_toNat]
  omega

@[simp] theorem wordOf_low_high (w : Word) : wordOf (lowByte w) (highByte w) = w := by
  apply BitVec.eq_of_toNat_eq
  simp only [wordOf_toNat, lowByte_toNat, highByte_toNat]
  omega

/-- Truncation of an integer to a bit vector is its remainder (two's complement). -/
theorem ofInt_toNat (n : Nat) (v : Int) : ((BitVec.ofInt n v).toNat : Int) = v % (2 ^ n : Nat) := by
  rw [BitVec.toNat_ofInt]
  have : (0 : Int) < ((2 ^ n : Nat) : Int) := by positivity
  exact Int.toNat_of_nonneg (Int.emod_nonneg _ (by omega))

end Sys2Proof

namespace Sys2Proof.Machine

@[simp] theorem withLow_toNat (w : Word) (b : Byte) : (withLow w b).toNat = w.toNat / 256 * 256 + b.toNat := by
  have h := append_toNat (highByte w) b
  rw [highByte_toNat] at h
  exact h

@[simp] theorem withHigh_toNat (w : Word) (b : Byte) : (withHigh w b).toNat = b.toNat * 256 + w.toNat % 256 := by
  have h := append_toNat b (lowByte w)
  rw [lowByte_toNat] at h
  exact h

end Sys2Proof.Machine
end

