-- ==== Sys2Proof/Laws/Encoding.lean ====
section
/-! SUPPORT. The fields of an encoding: register ids and each format's parser, both ways. -/

namespace Sys2Proof

theorem regIdOfNibble_ofNat_id (r : RegId) : regIdOfNibble (BitVec.ofNat 4 r.id) = r := by cases r <;> rfl

theorem ofNat_id_regIdOfNibble (n : BitVec 4) : BitVec.ofNat 4 (regIdOfNibble n).id = n := by
  revert n; decide

theorem regIdByteOk_regIdByte (r : RegId) : regIdByteOk (regIdByte r) = true := by cases r <;> rfl

/-- Every instruction is well formed: its type holds nothing but the sixteen register ids. -/
theorem wellFormed_all (i : Instr) : i.wellFormed = true :=
  List.all_eq_true.2 fun r _ => regIdByteOk_regIdByte r

/-- A register's byte is read back as the register (R76). -/
@[simp] theorem withRegId_regIdByte (r : RegId) (k : RegId → Decoded) : withRegId (regIdByte r) k = k r := by
  cases r <;> rfl

theorem nibble_regIdByte {b : Byte} (h : regIdByteOk b = true) : regIdByte (regIdOfNibble (b.extractLsb' 0 4)) = b := by
  revert b; decide

/-- Everything `withRegId` can answer (R79). -/
theorem withRegId_cases (b : Byte) (k : RegId → Decoded) :
    (∃ r, b = regIdByte r ∧ withRegId b k = k r) ∨ (15 < b.toNat ∧ withRegId b k = .error (.badRegId b)) := by
  unfold withRegId
  cases h : regIdByteOk b with
  | true => exact .inl ⟨_, (nibble_regIdByte h).symm, rfl⟩
  | false =>
    refine .inr ⟨?_, rfl⟩
    simp only [regIdByteOk, decide_eq_false_iff_not] at h
    omega

/-- The high nibble of an `RR` byte is the destination (R77). -/
@[simp] theorem packRR_dst (d r : RegId) : regIdOfNibble ((packRR d r).extractLsb' 4 4) = d := by
  cases d <;> cases r <;> rfl

/-- The low nibble of an `RR` byte is the source (R77). -/
@[simp] theorem packRR_src (d r : RegId) : regIdOfNibble ((packRR d r).extractLsb' 0 4) = r := by
  cases d <;> cases r <;> rfl

theorem packRR_nibbles (b : Byte) :
    packRR (regIdOfNibble (b.extractLsb' 4 4)) (regIdOfNibble (b.extractLsb' 0 4)) = b := by
  revert b; decide

/-! ### Each parser on the bytes of its format -/

@[simp] theorem parseRR_bytes (mk : RegId → RegId → Instr) (d r : RegId) (rest : List Byte) :
    parseRR mk (packRR d r :: rest) = .ok (mk d r, rest) := by
  simp [parseRR]

@[simp] theorem parseRegWord_bytes (mk : RegId → Word → Instr) (r : RegId) (w : Word) (rest : List Byte) :
    parseRegWord mk (regIdByte r :: lowByte w :: highByte w :: rest) = .ok (mk r w, rest) := by
  simp [parseRegWord]

@[simp] theorem parseRX_bytes (mk : RegId → RegId → Word → Instr) (r x : RegId) (w : Word) (rest : List Byte) :
    parseRX mk (regIdByte r :: regIdByte x :: lowByte w :: highByte w :: rest) = .ok (mk r x w, rest) := by
  simp [parseRX]

@[simp] theorem parseMI_bytes (mk : Word → Byte → Instr) (w : Word) (b : Byte) (rest : List Byte) :
    parseMI mk (lowByte w :: highByte w :: b :: rest) = .ok (mk w b, rest) := by
  simp [parseMI]

@[simp] theorem parseXI_bytes (mk : RegId → Word → Byte → Instr) (x : RegId) (w : Word) (b : Byte) (rest : List Byte) :
    parseXI mk (regIdByte x :: lowByte w :: highByte w :: b :: rest) = .ok (mk x w b, rest) := by
  simp [parseXI]

@[simp] theorem parseR_bytes (mk : RegId → Instr) (r : RegId) (rest : List Byte) :
    parseR mk (regIdByte r :: rest) = .ok (mk r, rest) := by
  simp [parseR]

@[simp] theorem parseM_bytes (mk : Word → Instr) (w : Word) (rest : List Byte) :
    parseM mk (lowByte w :: highByte w :: rest) = .ok (mk w, rest) := by
  simp [parseM]

@[simp] theorem parseJ8_bytes (mk : Byte → Instr) (b : Byte) (rest : List Byte) :
    parseJ8 mk (b :: rest) = .ok (mk b, rest) := rfl

/-! ### What a parser that answers has read -/

theorem parseRR_inv {mk : RegId → RegId → Instr} {bs rest : List Byte} {i : Instr} (h : parseRR mk bs = .ok (i, rest)) :
    ∃ d r, i = mk d r ∧ bs = packRR d r :: rest := by
  unfold parseRR at h
  split at h
  · next b tl =>
    simp only [Except.ok.injEq, Prod.mk.injEq] at h
    exact ⟨_, _, h.1.symm, by rw [packRR_nibbles, h.2]⟩
  · cases h

theorem parseRegWord_inv {mk : RegId → Word → Instr} {bs rest : List Byte} {i : Instr}
    (h : parseRegWord mk bs = .ok (i, rest)) :
    ∃ r w, i = mk r w ∧ bs = regIdByte r :: lowByte w :: highByte w :: rest := by
  unfold parseRegWord at h
  split at h
  · next b lo hi tl =>
    rcases withRegId_cases b (fun r => .ok (mk r (wordOf lo hi), tl)) with ⟨r, rfl, e⟩ | ⟨_, e⟩ <;> rw [e] at h
    · simp only [Except.ok.injEq, Prod.mk.injEq] at h
      exact ⟨r, wordOf lo hi, h.1.symm, by simp [h.2]⟩
    · cases h
  · cases h

theorem parseRX_inv {mk : RegId → RegId → Word → Instr} {bs rest : List Byte} {i : Instr}
    (h : parseRX mk bs = .ok (i, rest)) :
    ∃ r x w, i = mk r x w ∧ bs = regIdByte r :: regIdByte x :: lowByte w :: highByte w :: rest := by
  unfold parseRX at h
  split at h
  · next b x lo hi tl =>
    rcases withRegId_cases b (fun r => withRegId x fun idx => .ok (mk r idx (wordOf lo hi), tl)) with
      ⟨r, rfl, e⟩ | ⟨_, e⟩ <;> rw [e] at h
    · rcases withRegId_cases x (fun idx => .ok (mk r idx (wordOf lo hi), tl)) with ⟨y, rfl, e'⟩ | ⟨_, e'⟩ <;>
        rw [e'] at h
      · simp only [Except.ok.injEq, Prod.mk.injEq] at h
        exact ⟨r, y, wordOf lo hi, h.1.symm, by simp [h.2]⟩
      · cases h
    · cases h
  · cases h

theorem parseMI_inv {mk : Word → Byte → Instr} {bs rest : List Byte} {i : Instr} (h : parseMI mk bs = .ok (i, rest)) :
    ∃ w b, i = mk w b ∧ bs = lowByte w :: highByte w :: b :: rest := by
  unfold parseMI at h
  split at h
  · next lo hi b tl =>
    simp only [Except.ok.injEq, Prod.mk.injEq] at h
    exact ⟨wordOf lo hi, b, h.1.symm, by simp [h.2]⟩
  · cases h

theorem parseXI_inv {mk : RegId → Word → Byte → Instr} {bs rest : List Byte} {i : Instr}
    (h : parseXI mk bs = .ok (i, rest)) :
    ∃ x w b, i = mk x w b ∧ bs = regIdByte x :: lowByte w :: highByte w :: b :: rest := by
  unfold parseXI at h
  split at h
  · next x lo hi b tl =>
    rcases withRegId_cases x (fun idx => .ok (mk idx (wordOf lo hi) b, tl)) with ⟨r, rfl, e⟩ | ⟨_, e⟩ <;> rw [e] at h
    · simp only [Except.ok.injEq, Prod.mk.injEq] at h
      exact ⟨r, wordOf lo hi, b, h.1.symm, by simp [h.2]⟩
    · cases h
  · cases h

theorem parseR_inv {mk : RegId → Instr} {bs rest : List Byte} {i : Instr} (h : parseR mk bs = .ok (i, rest)) :
    ∃ r, i = mk r ∧ bs = regIdByte r :: rest := by
  unfold parseR at h
  split at h
  · next b tl =>
    rcases withRegId_cases b (fun r => .ok (mk r, tl)) with ⟨r, rfl, e⟩ | ⟨_, e⟩ <;> rw [e] at h
    · simp only [Except.ok.injEq, Prod.mk.injEq] at h
      exact ⟨r, h.1.symm, by rw [h.2]⟩
    · cases h
  · cases h

theorem parseM_inv {mk : Word → Instr} {bs rest : List Byte} {i : Instr} (h : parseM mk bs = .ok (i, rest)) :
    ∃ w, i = mk w ∧ bs = lowByte w :: highByte w :: rest := by
  unfold parseM at h
  split at h
  · next lo hi tl =>
    simp only [Except.ok.injEq, Prod.mk.injEq] at h
    exact ⟨wordOf lo hi, h.1.symm, by simp [h.2]⟩
  · cases h

theorem parseJ8_inv {mk : Byte → Instr} {bs rest : List Byte} {i : Instr} (h : parseJ8 mk bs = .ok (i, rest)) :
    ∃ b, i = mk b ∧ bs = b :: rest := by
  unfold parseJ8 at h
  split at h
  · next b tl =>
    simp only [Except.ok.injEq, Prod.mk.injEq] at h
    exact ⟨b, h.1.symm, by rw [h.2]⟩
  · cases h

end Sys2Proof

namespace Sys2Proof.Machine

/-! ### What the decoder rejects, by the format of the opcode byte -/

/-- An encoding starts with a byte of the instruction's own format (R83). -/
theorem encode_opcode (i : Instr) : ∃ op bs, encode i = op :: bs ∧ opcodeFormat op.toNat = some (instrFormat i) := by
  cases i <;> exact ⟨_, _, rfl, rfl⟩

theorem parseRR_trunc (mk bs) (h : bs.length + 1 < 2) : parseRR mk bs = .error .truncated := by
  match bs, h with
  | [], _ => rfl

theorem parseRegWord_trunc (mk bs) (h : bs.length + 1 < 4) : parseRegWord mk bs = .error .truncated := by
  match bs, h with
  | [], _ | [_], _ | [_, _], _ => rfl

theorem parseRX_trunc (mk bs) (h : bs.length + 1 < 5) : parseRX mk bs = .error .truncated := by
  match bs, h with
  | [], _ | [_], _ | [_, _], _ | [_, _, _], _ => rfl

theorem parseMI_trunc (mk bs) (h : bs.length + 1 < 4) : parseMI mk bs = .error .truncated := by
  match bs, h with
  | [], _ | [_], _ | [_, _], _ => rfl

theorem parseXI_trunc (mk bs) (h : bs.length + 1 < 5) : parseXI mk bs = .error .truncated := by
  match bs, h with
  | [], _ | [_], _ | [_, _], _ | [_, _, _], _ => rfl

theorem parseR_trunc (mk bs) (h : bs.length + 1 < 2) : parseR mk bs = .error .truncated := by
  match bs, h with
  | [], _ => rfl

theorem parseJ8_trunc (mk bs) (h : bs.length + 1 < 2) : parseJ8 mk bs = .error .truncated := by
  match bs, h with
  | [], _ => rfl

theorem parseM_trunc (mk bs) (h : bs.length + 1 < 3) : parseM mk bs = .error .truncated := by
  match bs, h with
  | [], _ | [_], _ => rfl

theorem withRegId_bad {b : Byte} {k} (h : 15 < b.toNat) : withRegId b k = .error (.badRegId b) := by
  unfold withRegId
  have : regIdByteOk b = false := by simp only [regIdByteOk, decide_eq_false_iff_not]; omega
  rw [this]; rfl

theorem parseRegWord_bad (mk bs) (hl : 4 ≤ bs.length + 1) (h : ∃ k ∈ [1], ∃ hk : k - 1 < bs.length, 15 < bs[k-1].toNat) : ∃ b, parseRegWord mk bs = .error (.badRegId b) := by
  obtain ⟨k, hk, hlt, h⟩ := h
  match bs, hl with
  | a :: b :: c :: _, _ => simp at hk; subst hk; rw [parseRegWord]; exact ⟨_, withRegId_bad (b := a) h⟩

theorem parseXI_bad (mk bs) (hl : 5 ≤ bs.length + 1) (h : ∃ k ∈ [1], ∃ hk : k - 1 < bs.length, 15 < bs[k-1].toNat) : ∃ b, parseXI mk bs = .error (.badRegId b) := by
  obtain ⟨k, hk, hlt, h⟩ := h
  match bs, hl with
  | a :: b :: c :: d :: _, _ => simp at hk; subst hk; rw [parseXI]; exact ⟨_, withRegId_bad (b := a) h⟩

theorem parseR_bad (mk bs) (hl : 2 ≤ bs.length + 1) (h : ∃ k ∈ [1], ∃ hk : k - 1 < bs.length, 15 < bs[k-1].toNat) : ∃ b, parseR mk bs = .error (.badRegId b) := by
  obtain ⟨k, hk, hlt, h⟩ := h
  match bs, hl with
  | a :: _, _ => simp at hk; subst hk; rw [parseR]; exact ⟨_, withRegId_bad (b := a) h⟩

theorem parseRX_bad (mk bs) (hl : 5 ≤ bs.length + 1) (h : ∃ k ∈ [1, 2], ∃ hk : k - 1 < bs.length, 15 < bs[k-1].toNat) : ∃ b, parseRX mk bs = .error (.badRegId b) := by
  obtain ⟨k, hk, hlt, h⟩ := h
  match bs, hl with
  | a :: b :: c :: d :: _, _ =>
    simp at hk
    rw [parseRX]
    rcases hk with rfl | rfl
    · exact ⟨_, withRegId_bad (b := a) h⟩
    · rcases withRegId_cases a (fun r => withRegId b fun idx => .ok (mk r idx (wordOf c d), _)) with ⟨_, _, e⟩ | ⟨_, e⟩
      · exact ⟨_, e.trans (withRegId_bad (b := b) h)⟩
      · exact ⟨_, e⟩

/-- An unassigned opcode byte is rejected (R85). -/
theorem decode_unassigned (op : Byte) (bs) (h : opcodeFormat op.toNat = none) : ∃ b, decode (op :: bs) = .error (.unassigned b) := by
  simp only [decode]
  split
  case h_64 => exact ⟨_, rfl⟩
  all_goals (rename_i e; rw [e] at h; injection h)

/-- An instruction whose bytes end too early is rejected as such (R71). -/
theorem decode_truncated (op : Byte) (bs f) (h : opcodeFormat op.toNat = some f) (hl : bs.length + 1 < formatLength f) : decode (op :: bs) = .error .truncated := by
  simp only [decode, parseRI, parseRM, parseX, parseJ16, parseI8]
  split
  case h_64 => 
    exfalso
    simp only [opcodeFormat] at h
    cases h
  all_goals
    rename_i e; rw [e] at h
    injection h with h
    subst h
    first
    | exact parseRR_trunc _ _ hl
    | exact parseRegWord_trunc _ _ hl
    | exact parseRX_trunc _ _ hl
    | exact parseMI_trunc _ _ hl
    | exact parseXI_trunc _ _ hl
    | exact parseR_trunc _ _ hl
    | exact parseJ8_trunc _ _ hl
    | exact parseM_trunc _ _ hl
    | simp [formatLength] at hl

/-- A register byte above 15 is rejected as such, once all bytes are there (R79). -/
theorem decode_bad (op : Byte) (bs f) (h : opcodeFormat op.toNat = some f) (hl : formatLength f ≤ bs.length + 1)
   (hb : ∃ k ∈ regByteOffsets f, ∃ hk : k - 1 < bs.length, 15 < bs[k-1].toNat) : ∃ b, decode (op :: bs) = .error (.badRegId b) := by
  simp only [decode, parseRI, parseRM, parseX, parseJ16, parseI8]
  split
  case h_64 => 
    exfalso
    simp only [opcodeFormat] at h
    cases h
  all_goals
    rename_i e; rw [e] at h
    injection h with h
    subst h
    first
    | exact parseRegWord_bad _ _ hl hb
    | exact parseRX_bad _ _ hl hb
    | exact parseXI_bad _ _ hl hb
    | exact parseR_bad _ _ hl hb
    | (obtain ⟨_, h, _⟩ := hb; cases h)

end Sys2Proof.Machine
end

