-- ==== Sys2Proof/Laws/State.lean ====
section
/-! SUPPORT. What each named update does to each field of the state: one lemma per field per update. -/

namespace Sys2Proof.Machine

@[simp] theorem State.setReg_regs (s : State) (r : RegId) (v : Int) : (s.setReg r v).regs = writeReg s.regs r v := rfl
@[simp] theorem State.setReg_segs (s : State) (r : RegId) (v : Int) : (s.setReg r v).segs = s.segs := rfl
@[simp] theorem State.setReg_ip (s : State) (r : RegId) (v : Int) : (s.setReg r v).ip = s.ip := rfl
@[simp] theorem State.setReg_flags (s : State) (r : RegId) (v : Int) : (s.setReg r v).flags = s.flags := rfl
@[simp] theorem State.setReg_mem (s : State) (r : RegId) (v : Int) : (s.setReg r v).mem = s.mem := rfl
@[simp] theorem State.setReg_halted (s : State) (r : RegId) (v : Int) : (s.setReg r v).halted = s.halted := rfl
@[simp] theorem State.setReg_fault (s : State) (r : RegId) (v : Int) : (s.setReg r v).fault = s.fault := rfl
@[simp] theorem State.setReg_output (s : State) (r : RegId) (v : Int) : (s.setReg r v).output = s.output := rfl
@[simp] theorem State.setReg_config (s : State) (r : RegId) (v : Int) : (s.setReg r v).config = s.config := rfl
@[simp] theorem State.setReg_draws (s : State) (r : RegId) (v : Int) : (s.setReg r v).draws = s.draws := rfl

@[simp] theorem State.setFlags_regs (s : State) (raw : Int) (bits : Nat) : (s.setFlags raw bits).regs = s.regs := rfl
@[simp] theorem State.setFlags_segs (s : State) (raw : Int) (bits : Nat) : (s.setFlags raw bits).segs = s.segs := rfl
@[simp] theorem State.setFlags_ip (s : State) (raw : Int) (bits : Nat) : (s.setFlags raw bits).ip = s.ip := rfl
@[simp] theorem State.setFlags_flags (s : State) (raw : Int) (bits : Nat) : (s.setFlags raw bits).flags = Sys2Proof.Machine.setFlags s.flags raw bits := rfl
@[simp] theorem State.setFlags_mem (s : State) (raw : Int) (bits : Nat) : (s.setFlags raw bits).mem = s.mem := rfl
@[simp] theorem State.setFlags_halted (s : State) (raw : Int) (bits : Nat) : (s.setFlags raw bits).halted = s.halted := rfl
@[simp] theorem State.setFlags_fault (s : State) (raw : Int) (bits : Nat) : (s.setFlags raw bits).fault = s.fault := rfl
@[simp] theorem State.setFlags_output (s : State) (raw : Int) (bits : Nat) : (s.setFlags raw bits).output = s.output := rfl
@[simp] theorem State.setFlags_config (s : State) (raw : Int) (bits : Nat) : (s.setFlags raw bits).config = s.config := rfl
@[simp] theorem State.setFlags_draws (s : State) (raw : Int) (bits : Nat) : (s.setFlags raw bits).draws = s.draws := rfl

@[simp] theorem State.drawDivFlags_regs (s : State) : s.drawDivFlags.regs = s.regs := rfl
@[simp] theorem State.drawDivFlags_segs (s : State) : s.drawDivFlags.segs = s.segs := rfl
@[simp] theorem State.drawDivFlags_ip (s : State) : s.drawDivFlags.ip = s.ip := rfl
@[simp] theorem State.drawDivFlags_flags (s : State) : s.drawDivFlags.flags = assignFlags s.flags (Config.divFlags s.draws) := rfl
@[simp] theorem State.drawDivFlags_mem (s : State) : s.drawDivFlags.mem = s.mem := rfl
@[simp] theorem State.drawDivFlags_halted (s : State) : s.drawDivFlags.halted = s.halted := rfl
@[simp] theorem State.drawDivFlags_fault (s : State) : s.drawDivFlags.fault = s.fault := rfl
@[simp] theorem State.drawDivFlags_output (s : State) : s.drawDivFlags.output = s.output := rfl
@[simp] theorem State.drawDivFlags_config (s : State) : s.drawDivFlags.config = s.config := rfl
@[simp] theorem State.drawDivFlags_draws (s : State) : s.drawDivFlags.draws = s.draws + 1 := rfl

@[simp] theorem takeFault_regs (s : State) (c : FaultCode) (len : Nat) : (takeFault s c len).regs = s.regs := rfl
@[simp] theorem takeFault_segs (s : State) (c : FaultCode) (len : Nat) : (takeFault s c len).segs = s.segs := rfl
@[simp] theorem takeFault_ip (s : State) (c : FaultCode) (len : Nat) : (takeFault s c len).ip = faultedIp s c len := rfl
@[simp] theorem takeFault_flags (s : State) (c : FaultCode) (len : Nat) : (takeFault s c len).flags = s.flags := rfl
@[simp] theorem takeFault_mem (s : State) (c : FaultCode) (len : Nat) : (takeFault s c len).mem = s.mem := rfl
@[simp] theorem takeFault_halted (s : State) (c : FaultCode) (len : Nat) : (takeFault s c len).halted = s.halted := rfl
@[simp] theorem takeFault_fault (s : State) (c : FaultCode) (len : Nat) : (takeFault s c len).fault = some c := rfl
@[simp] theorem takeFault_output (s : State) (c : FaultCode) (len : Nat) : (takeFault s c len).output = none := rfl
@[simp] theorem takeFault_config (s : State) (c : FaultCode) (len : Nat) : (takeFault s c len).config = s.config := rfl
@[simp] theorem takeFault_draws (s : State) (c : FaultCode) (len : Nat) : (takeFault s c len).draws = if faultDrawsIp s c len then s.draws + 1 else s.draws := rfl

@[simp] theorem State.withFetchWord_regs (s : State) (nbits w : Nat) : (s.withFetchWord nbits w).regs = s.regs := rfl
@[simp] theorem State.withFetchWord_segs (s : State) (nbits w : Nat) : (s.withFetchWord nbits w).segs = s.segs := rfl
@[simp] theorem State.withFetchWord_ip (s : State) (nbits w : Nat) : (s.withFetchWord nbits w).ip = s.ip := rfl
@[simp] theorem State.withFetchWord_flags (s : State) (nbits w : Nat) : (s.withFetchWord nbits w).flags = s.flags := rfl
@[simp] theorem State.withFetchWord_mem (s : State) (nbits w : Nat) : (s.withFetchWord nbits w).mem = placeBytes s.mem s.ip.toNat (tableWordBytes nbits w) := rfl
@[simp] theorem State.withFetchWord_halted (s : State) (nbits w : Nat) : (s.withFetchWord nbits w).halted = false := rfl
@[simp] theorem State.withFetchWord_fault (s : State) (nbits w : Nat) : (s.withFetchWord nbits w).fault = none := rfl
@[simp] theorem State.withFetchWord_output (s : State) (nbits w : Nat) : (s.withFetchWord nbits w).output = s.output := rfl
@[simp] theorem State.withFetchWord_config (s : State) (nbits w : Nat) : (s.withFetchWord nbits w).config = s.config := rfl
@[simp] theorem State.withFetchWord_draws (s : State) (nbits w : Nat) : (s.withFetchWord nbits w).draws = s.draws := rfl

@[simp] theorem loadImage_regs (s : State) (image : List Byte) (entry : Word) : (loadImage s image entry).regs = s.regs := rfl
@[simp] theorem loadImage_segs (s : State) (image : List Byte) (entry : Word) : (loadImage s image entry).segs = s.segs := rfl
@[simp] theorem loadImage_ip (s : State) (image : List Byte) (entry : Word) : (loadImage s image entry).ip = entry := rfl
@[simp] theorem loadImage_flags (s : State) (image : List Byte) (entry : Word) : (loadImage s image entry).flags = s.flags := rfl
@[simp] theorem loadImage_mem (s : State) (image : List Byte) (entry : Word) : (loadImage s image entry).mem = imageFrom 0 (image.take 0x10000) := rfl
@[simp] theorem loadImage_halted (s : State) (image : List Byte) (entry : Word) : (loadImage s image entry).halted = false := rfl
@[simp] theorem loadImage_fault (s : State) (image : List Byte) (entry : Word) : (loadImage s image entry).fault = none := rfl
@[simp] theorem loadImage_output (s : State) (image : List Byte) (entry : Word) : (loadImage s image entry).output = none := rfl
@[simp] theorem loadImage_config (s : State) (image : List Byte) (entry : Word) : (loadImage s image entry).config = s.config := rfl
@[simp] theorem loadImage_draws (s : State) (image : List Byte) (entry : Word) : (loadImage s image entry).draws = s.draws := rfl

@[simp] theorem setFlags_pf (f : Flags) (raw : Int) (bits : Nat) : (setFlags f raw bits).pf = f.pf := rfl
@[simp] theorem assignFlags_pf (f : Flags) (v : Bool × Bool × Bool) : (assignFlags f v).pf = f.pf := rfl
@[simp] theorem setFlags_af (f : Flags) (raw : Int) (bits : Nat) : (setFlags f raw bits).af = f.af := rfl
@[simp] theorem assignFlags_af (f : Flags) (v : Bool × Bool × Bool) : (assignFlags f v).af = f.af := rfl
@[simp] theorem setFlags_tf (f : Flags) (raw : Int) (bits : Nat) : (setFlags f raw bits).tf = f.tf := rfl
@[simp] theorem assignFlags_tf (f : Flags) (v : Bool × Bool × Bool) : (assignFlags f v).tf = f.tf := rfl
@[simp] theorem setFlags_ief (f : Flags) (raw : Int) (bits : Nat) : (setFlags f raw bits).ief = f.ief := rfl
@[simp] theorem assignFlags_ief (f : Flags) (v : Bool × Bool × Bool) : (assignFlags f v).ief = f.ief := rfl
@[simp] theorem setFlags_df (f : Flags) (raw : Int) (bits : Nat) : (setFlags f raw bits).df = f.df := rfl
@[simp] theorem assignFlags_df (f : Flags) (v : Bool × Bool × Bool) : (assignFlags f v).df = f.df := rfl
@[simp] theorem setFlags_ovf (f : Flags) (raw : Int) (bits : Nat) : (setFlags f raw bits).ovf = f.ovf := rfl
@[simp] theorem assignFlags_ovf (f : Flags) (v : Bool × Bool × Bool) : (assignFlags f v).ovf = f.ovf := rfl

theorem State.reg_eq (s : State) (r : RegId) : s.reg r = readReg s.regs r := rfl

theorem State.setReg_reg (s : State) (r q : RegId) (v : Int) :
    (s.setReg r v).reg q = readReg (writeReg s.regs r v) q := rfl

theorem State.setFlags_reg (s : State) (raw : Int) (bits : Nat) (q : RegId) : (s.setFlags raw bits).reg q = s.reg q := rfl

theorem State.drawDivFlags_reg (s : State) (q : RegId) : s.drawDivFlags.reg q = s.reg q := rfl

/-- A fault that is no divide fault leaves IP at the faulting instruction (R243(c)). -/
theorem faultedIp_of_not_divide (s : State) (c : FaultCode) (len : Nat) (h : c.isDivide = false) :
    faultedIp s c len = s.ip := by
  simp [faultedIp, h]

/-- A fault that is no divide fault takes no draw. -/
theorem faultDrawsIp_of_not_divide (s : State) (c : FaultCode) (len : Nat) (h : c.isDivide = false) :
    faultDrawsIp s c len = false := by
  simp [faultDrawsIp, h]

end Sys2Proof.Machine
end

