-- ==== Sys2Proof/Laws/Memory.lean ====
section
/-! SUPPORT. Memory: what a read after a write gives, and that every operation over memory keeps the canonical form
(`Memory.wf`). -/

namespace Sys2Proof.Machine

/-! ### One byte -/

/-- A read below every listed address finds nothing listed. -/
theorem read_of_risingFrom {m : Memory} : ∀ {k a : Nat}, risingFrom k m = true → a ≤ k → Memory.read m a = 0 := by
  induction m with
  | nil => intros; rfl
  | cons c m ih =>
    obtain ⟨j, b⟩ := c
    intro k a h hak
    simp only [risingFrom, Bool.and_eq_true, decide_eq_true_eq] at h
    have hne : j ≠ a := by omega
    simp only [Memory.read, hne, if_false]
    exact ih h.2 (by omega)

theorem read_consByte_same {m : Memory} {a : Nat} {b : Byte} (h : risingFrom a m = true) :
    Memory.read (consByte a b m) a = b := by
  unfold consByte
  split
  · next hb => rw [hb]; exact read_of_risingFrom h (Nat.le_refl _)
  · simp [Memory.read]

theorem read_consByte_other {m : Memory} {a x : Nat} {b : Byte} (h : x ≠ a) :
    Memory.read (consByte a b m) x = Memory.read m x := by
  unfold consByte
  split
  · rfl
  · simp [Memory.read, Ne.symm h]

theorem risingFrom_weaken {m : Memory} {j k : Nat} (hjk : j ≤ k) (h : risingFrom k m = true) : risingFrom j m = true := by
  cases m with
  | nil => rfl
  | cons c m =>
    simp only [risingFrom, Bool.and_eq_true, decide_eq_true_eq] at h ⊢
    exact ⟨by omega, h.2⟩

theorem risingFrom_consByte {m : Memory} {j a : Nat} {b : Byte} (hja : j < a) (h : risingFrom a m = true) :
    risingFrom j (consByte a b m) = true := by
  unfold consByte
  split
  · exact risingFrom_weaken (by omega) h
  · simp [risingFrom, hja, h]

theorem risingFrom_write {m : Memory} {a : Nat} {b : Byte} :
    ∀ {j : Nat}, risingFrom j m = true → j < a → risingFrom j (Memory.write m a b) = true := by
  induction m with
  | nil => intro j _ hja; exact risingFrom_consByte hja rfl
  | cons c m ih =>
    obtain ⟨k, d⟩ := c
    intro j h hja
    simp only [risingFrom, Bool.and_eq_true, decide_eq_true_eq] at h
    unfold Memory.write
    split
    · next hak => exact risingFrom_consByte hja (by simp [risingFrom, hak, h.2])
    · split
      · next hak => subst hak; exact risingFrom_consByte hja h.2
      · simp only [risingFrom, Bool.and_eq_true, decide_eq_true_eq]
        exact ⟨h.1, ih h.2 (by omega)⟩

theorem risingFrom_of_rising_cons {k : Nat} {b : Byte} {m : Memory} (h : rising ((k, b) :: m) = true) :
    risingFrom k m = true := h

theorem rising_of_risingFrom {k : Nat} {m : Memory} (h : risingFrom k m = true) : rising m = true := by
  cases m with
  | nil => rfl
  | cons c m =>
    simp only [risingFrom, Bool.and_eq_true] at h
    exact h.2

theorem rising_consByte {m : Memory} {a : Nat} {b : Byte} (h : risingFrom a m = true) :
    rising (consByte a b m) = true := by
  unfold consByte
  split
  · exact rising_of_risingFrom h
  · exact h

theorem rising_write {m : Memory} (a : Nat) (b : Byte) (h : rising m = true) : rising (Memory.write m a b) = true := by
  cases m with
  | nil => exact rising_consByte rfl
  | cons c m =>
    obtain ⟨k, d⟩ := c
    have h' := risingFrom_of_rising_cons h
    unfold Memory.write
    split
    · next hak => exact rising_consByte (by simp [risingFrom, hak, h'])
    · split
      · next hak => subst hak; exact rising_consByte h'
      · exact risingFrom_write h' (by omega)

theorem read_write_same_of_risingFrom {m : Memory} {a : Nat} {b : Byte} (h : rising m = true) :
    Memory.read (Memory.write m a b) a = b := by
  induction m with
  | nil => exact read_consByte_same rfl
  | cons c m ih =>
    obtain ⟨k, d⟩ := c
    have h' := risingFrom_of_rising_cons h
    unfold Memory.write
    split
    · next hak => exact read_consByte_same (by simp [risingFrom, hak, h'])
    · split
      · next hak => subst hak; exact read_consByte_same h'
      · next hne =>
        simp only [Memory.read, Ne.symm hne, if_false]
        exact ih (rising_of_risingFrom h')

/-- A read of the byte just written gives the value written. -/
theorem read_write_same {m : Memory} (a : Nat) (b : Byte) (h : m.wf = true) :
    Memory.read (Memory.write m a b) a = b := by
  simp only [Memory.wf, Bool.and_eq_true] at h
  exact read_write_same_of_risingFrom h.1

/-- A write leaves every other byte alone, in canonical form or not. -/
theorem read_write_other (m : Memory) {a x : Nat} (b : Byte) (h : x ≠ a) :
    Memory.read (Memory.write m a b) x = Memory.read m x := by
  induction m with
  | nil => exact read_consByte_other h
  | cons c m ih =>
    obtain ⟨k, d⟩ := c
    unfold Memory.write
    split
    · exact read_consByte_other h
    · split
      · next hak => subst hak; rw [read_consByte_other h]; simp [Memory.read, Ne.symm h]
      · simp only [Memory.read]; split <;> [rfl; exact ih]

/-! ### The canonical form -/

/-- Every listed address is at most 0xFFFF and no listed byte is 0x00. -/
def cellsOk (m : Memory) : Bool := m.all fun c => decide (c.1 ≤ 0xFFFF) && decide (c.2 ≠ 0)

theorem wf_iff (m : Memory) : m.wf = true ↔ rising m = true ∧ cellsOk m = true := by
  simp only [Memory.wf, cellsOk, Bool.and_eq_true]

theorem cellsOk_cons (c : Host.Cell) (m : Memory) :
    cellsOk (c :: m) = true ↔ (c.1 ≤ 0xFFFF ∧ c.2 ≠ 0) ∧ cellsOk m = true := by
  simp only [cellsOk, List.all_cons, Bool.and_eq_true, decide_eq_true_eq]

theorem cellsOk_consByte {m : Memory} {a : Nat} {b : Byte} (ha : a ≤ 0xFFFF) (h : cellsOk m = true) :
    cellsOk (consByte a b m) = true := by
  unfold consByte
  split
  · exact h
  · next hb => exact (cellsOk_cons _ _).2 ⟨⟨ha, hb⟩, h⟩

theorem cellsOk_write {m : Memory} {a : Nat} {b : Byte} (ha : a ≤ 0xFFFF) (h : cellsOk m = true) :
    cellsOk (Memory.write m a b) = true := by
  induction m with
  | nil => exact cellsOk_consByte ha h
  | cons c m ih =>
    obtain ⟨k, d⟩ := c
    have hc := (cellsOk_cons _ _).1 h
    unfold Memory.write
    split
    · exact cellsOk_consByte ha h
    · split
      · exact cellsOk_consByte ha hc.2
      · exact (cellsOk_cons _ _).2 ⟨hc.1, ih hc.2⟩

/-- Writing a byte inside the address space keeps the canonical form. -/
theorem wf_write {m : Memory} {a : Nat} (b : Byte) (ha : a ≤ 0xFFFF) (h : m.wf = true) :
    (Memory.write m a b).wf = true := by
  rw [wf_iff] at h ⊢
  exact ⟨rising_write a b h.1, cellsOk_write ha h.2⟩

theorem inBounds_iff (a : Nat) (w : Width) : inBounds a w = true ↔ a + w.bytes ≤ 0x10000 := by
  unfold inBounds
  rw [decide_eq_true_eq]
  cases w <;> simp only [Width.bytes] <;> omega

/-- A store inside the bounds keeps the canonical form. -/
theorem wf_storeBytes {m : Memory} {a : Nat} {w : Width} (v : Int) (ha : inBounds a w = true) (h : m.wf = true) :
    (storeBytes m a w v).wf = true := by
  rw [inBounds_iff] at ha
  cases w <;> simp only [Width.bytes] at ha
  · exact wf_write _ (by omega) h
  · exact wf_write _ (by omega) (wf_write _ (by omega) h)

/-- Placing bytes keeps the canonical form. -/
theorem wf_placeBytes (bs : List Byte) : ∀ {m : Memory} {a : Nat}, m.wf = true → (placeBytes m a bs).wf = true := by
  induction bs with
  | nil => intro m a h; exact h
  | cons b bs ih =>
    intro m a h
    unfold placeBytes
    split
    · next ha => exact ih (wf_write b ha h)
    · exact h

theorem risingFrom_imageFrom (bs : List Byte) : ∀ {j a : Nat}, j < a → risingFrom j (imageFrom a bs) = true := by
  induction bs with
  | nil => intros; rfl
  | cons b bs ih => intro j a hja; exact risingFrom_consByte hja (ih (Nat.lt_succ_self a))

theorem cellsOk_imageFrom (bs : List Byte) : ∀ {a : Nat}, a + bs.length ≤ 0x10000 → cellsOk (imageFrom a bs) = true := by
  induction bs with
  | nil => intros; rfl
  | cons b bs ih =>
    intro a h
    simp only [List.length_cons] at h
    exact cellsOk_consByte (by omega) (ih (by omega))

/-- An image stands in memory byte for byte (spec/70_reset_and_hazards.md R272). -/
theorem read_imageFrom (bs : List Byte) : ∀ {a x : Nat} (hx : x < bs.length), (imageFrom a bs).read (a + x) = bs[x] := by
  induction bs with
  | nil => intro a x hx; simp at hx
  | cons b bs ih =>
    intro a x hx
    cases x with
    | zero => exact read_consByte_same (risingFrom_imageFrom bs (Nat.lt_succ_self a))
    | succ x =>
      simp only [imageFrom]
      rw [read_consByte_other (by omega), show a + (x + 1) = a + 1 + x by omega, ih (by simpa using hx)]
      rfl

/-- Loading an image gives memory in canonical form. -/
theorem wf_imageFrom (image : List Byte) : (imageFrom 0 (image.take 0x10000)).wf = true := by
  have hl : (image.take 0x10000).length ≤ 0x10000 := List.length_take_le _ _
  refine (wf_iff _).2 ⟨?_, cellsOk_imageFrom _ (by omega)⟩
  cases h : image.take 0x10000 with
  | nil => rfl
  | cons b bs => exact rising_consByte (risingFrom_imageFrom bs (Nat.lt_succ_self 0))

/-- Reset memory, which lists nothing, is in canonical form. -/
theorem wf_reset : State.reset.mem.wf = true := rfl

/-! ### Accesses of one and two bytes -/

/-- The value of an access, byte by byte (R51). -/
theorem loadBytes_eq_valueAt (m : Memory) (a : Nat) (w : Width) : loadBytes m a w = valueAt m a w := by
  cases w <;> simp [loadBytes, valueAt]

/-- A store leaves every byte outside it alone. -/
theorem read_storeBytes_other (m : Memory) {a x : Nat} (w : Width) (v : Int) (h : x < a ∨ a + w.bytes ≤ x) :
    Memory.read (storeBytes m a w v) x = Memory.read m x := by
  cases w <;> simp only [Width.bytes] at h <;> simp only [storeBytes]
  · exact read_write_other m _ (by omega)
  · rw [read_write_other _ _ (by omega), read_write_other _ _ (by omega)]

/-- The first byte of a store is its low byte (R52). -/
theorem read_storeBytes_low {m : Memory} {a : Nat} {w : Width} (v : Int) (ha : inBounds a w = true)
    (h : m.wf = true) : ((Memory.read (storeBytes m a w v) a).toNat : Int) = v % 256 := by
  have h8 := ofInt_toNat 8 v
  have h16 := ofInt_toNat 16 v
  cases w <;> simp only [storeBytes]
  · rw [read_write_same a _ h]; omega
  · rw [read_write_other _ _ (by omega), read_write_same a _ h, lowByte_toNat]; omega

/-- The second byte of a 16-bit store is its high byte (R52). -/
theorem read_storeBytes_high {m : Memory} {a : Nat} (v : Int) (ha : inBounds a .word = true)
    (h : m.wf = true) : ((Memory.read (storeBytes m a .word v) (a + 1)).toNat : Int) = v / 256 % 256 := by
  have h16 := ofInt_toNat 16 v
  rw [inBounds_iff] at ha
  simp only [Width.bytes] at ha
  simp only [storeBytes]
  rw [read_write_same (a + 1) _ (wf_write _ (by omega) h), highByte_toNat]
  omega

/-- Everything `memRead` can answer (R51). -/
theorem memRead_cases (s : State) (a : Nat) (w : Width) :
    (a + w.bytes ≤ 0x10000 ∧ s.memRead a w = some (valueAt s.mem a w)) ∨
      (0x10000 < a + w.bytes ∧ s.memRead a w = none) := by
  unfold State.memRead
  split
  · next h => exact .inl ⟨(inBounds_iff a w).1 h, by rw [loadBytes_eq_valueAt]⟩
  · next h => rw [inBounds_iff] at h; exact .inr ⟨by omega, rfl⟩

/-- Everything `memWrite` can answer (R52). -/
theorem memWrite_cases (s : State) (a : Nat) (w : Width) (v : Int) :
    (a + w.bytes ≤ 0x10000 ∧ s.memWrite a w v = some { s with mem := storeBytes s.mem a w v }) ∨
      (0x10000 < a + w.bytes ∧ s.memWrite a w v = none) := by
  unfold State.memWrite
  split
  · next h => exact .inl ⟨(inBounds_iff a w).1 h, rfl⟩
  · next h => rw [inBounds_iff] at h; exact .inr ⟨by omega, rfl⟩

end Sys2Proof.Machine
end

