-- ==== Sys2Proof/Laws/Regs.lean ====
section
/-! SUPPORT. Reading a register after a write: the register written, the registers that share no storage with it. -/

namespace Sys2Proof.Machine

/-- A read is in range for the register's width (R22). -/
theorem readReg_lt (g : Regs) (r : RegId) : readReg g r < 2 ^ r.width.bits := by
  cases r <;> simp only [readReg, RegId.width, Width.bits] <;> exact BitVec.isLt _

/-- The register written reads as the value truncated to its width (R23). -/
theorem readReg_writeReg_same (g : Regs) (r : RegId) (v : Int) :
    (readReg (writeReg g r v) r : Int) = v % (2 ^ r.width.bits : Nat) := by
  have h8 := ofInt_toNat 8 v
  have h16 := ofInt_toNat 16 v
  have l8 := (BitVec.ofInt 8 v).isLt
  cases r <;>
    simp only [readReg, writeReg, RegId.width, Width.bits, lowByte_toNat, highByte_toNat, withLow_toNat,
      withHigh_toNat] <;> omega

/-- A register that shares no storage with the one written is as before (R23). -/
theorem readReg_writeReg_other (g : Regs) (r q : RegId) (v : Int) (h : overlap q r = false) :
    readReg (writeReg g r v) q = readReg g q := by
  have l8 := (BitVec.ofInt 8 v).isLt
  cases r <;> cases q <;> first
    | rfl
    | exact absurd h (by decide)
    | (simp only [readReg, writeReg, lowByte_toNat, highByte_toNat, withLow_toNat, withHigh_toNat]; omega)

theorem State.reg_lt (s : State) (r : RegId) : s.reg r < 2 ^ r.width.bits := readReg_lt s.regs r

theorem State.reg_setReg_same (s : State) (r : RegId) (v : Int) :
    ((s.setReg r v).reg r : Int) = v % (2 ^ r.width.bits : Nat) := readReg_writeReg_same s.regs r v

theorem State.reg_setReg_other (s : State) (r q : RegId) (v : Int) (h : overlap q r = false) :
    (s.setReg r v).reg q = s.reg q := readReg_writeReg_other s.regs r q v h

theorem overlap_self (r : RegId) : overlap r r = true := by cases r <;> rfl

end Sys2Proof.Machine
end

