-- ==== Sys2Proof/Laws/Outcomes.lean ====
section
/-! SUPPORT. One lemma per shared operation: everything it can answer. Later proofs cite these and unfold nothing. -/

namespace Sys2Proof.Machine

/-! ### The end of a step -/

theorem ofInt_natCast (n : Nat) : BitVec.ofInt 16 (n : Int) = BitVec.ofNat 16 n := BitVec.ofInt_natCast 16 n

theorem ofInt_toNat_of_range {next : Int} (h0 : 0 ≤ next) (h1 : next ≤ 0xFFFF) :
    ((BitVec.ofInt 16 next).toNat : Int) = next := by
  rw [ofInt_toNat]
  omega

theorem commit_cases (s t : State) (next : Int) (out : Option (List Byte)) :
    (0 ≤ next ∧ next ≤ 0xFFFF ∧ commit s t next out = .next { t with ip := BitVec.ofInt 16 next, output := out }) ∨
      ((next < 0 ∨ 0xFFFF < next) ∧ commit s t next out = raise s .ipOutOfBounds 0) := by
  unfold commit
  split
  · next h => exact .inl ⟨h.1, by omega, rfl⟩
  · next h => exact .inr ⟨by omega, rfl⟩

/-- Where the next IP is an address, the writes commit. -/
theorem commit_of_range {s t : State} {next : Int} {out : Option (List Byte)} (h0 : 0 ≤ next) (h1 : next ≤ 0xFFFF) :
    commit s t next out = .next { t with ip := BitVec.ofInt 16 next, output := out } := by
  unfold commit
  rw [if_pos ⟨h0, by omega⟩]

/-- Where it is not, the step faults. -/
theorem commit_of_not_range {s t : State} {next : Int} {out : Option (List Byte)} (h : next < 0 ∨ 0xFFFF < next) :
    commit s t next out = raise s .ipOutOfBounds 0 := by
  unfold commit
  rw [if_neg (by omega)]

theorem complete_cases (s t : State) (len : Nat) :
    (s.ip.toNat + len ≤ 0xFFFF ∧
        complete s t len = .next { t with ip := BitVec.ofNat 16 (s.ip.toNat + len), output := none }) ∨
      (0xFFFF < s.ip.toNat + len ∧ complete s t len = raise s .ipOutOfBounds 0) := by
  rcases commit_cases s t ((s.ip.toNat : Int) + len) none with ⟨_, h1, h⟩ | ⟨h1, h⟩
  · refine .inl ⟨by omega, ?_⟩
    rw [← ofInt_natCast]
    exact h
  · exact .inr ⟨by omega, h⟩

theorem complete_of_range {s t : State} {len : Nat} (h : s.ip.toNat + len ≤ 0xFFFF) :
    complete s t len = .next { t with ip := BitVec.ofNat 16 (s.ip.toNat + len), output := none } := by
  rcases complete_cases s t len with ⟨_, e⟩ | ⟨h', _⟩
  · exact e
  · omega

theorem complete_of_not_range {s t : State} {len : Nat} (h : 0xFFFF < s.ip.toNat + len) :
    complete s t len = raise s .ipOutOfBounds 0 := by
  rcases complete_cases s t len with ⟨h', _⟩ | ⟨_, e⟩
  · omega
  · exact e

/-- A fault other than a divide fault changes the fault mark and the output only (R243). -/
theorem takeFault_of_not_divide {s : State} {c : FaultCode} {len : Nat} (h : c.isDivide = false) :
    takeFault s c len = { s with fault := some c, output := none } := by
  simp [takeFault, faultedIp_of_not_divide s c len h, faultDrawsIp_of_not_divide s c len h]

theorem raise_faultsWith (s : State) (c : FaultCode) (len : Nat) (h : c.isDivide = false) :
    faultsWith c s (raise s c len) := by
  unfold faultsWith raise
  rw [takeFault_of_not_divide h]

/-- A divide fault (R243). -/
theorem raise_divideFaults (s : State) (c : FaultCode) (len : Nat) (h : c.isDivide = true) :
    divideFaults c len s (raise s c len) := by
  refine ⟨takeFault s c len, rfl, rfl, rfl, rfl, rfl, rfl, rfl, rfl, rfl, fun hl => ?_⟩
  simp only [takeFault_ip, faultedIp, h, if_true, show ¬ 0x10000 ≤ s.ip.toNat + len by omega, if_false,
    BitVec.toNat_ofNat]
  omega

/-! ### Operations on operands -/

theorem source_mem (s : State) (w : Width) (m : MemOperand) :
    sourceValue s w (.mem m) = s.memRead (effAddr s m) w := rfl

theorem and_maskOf (w : Width) (v : Nat) : v &&& maskOf w.bits = v % 2 ^ w.bits := by
  unfold maskOf
  exact Nat.and_two_pow_sub_one_eq_mod v w.bits

theorem source_reg (s : State) (w : Width) (r : RegId) :
    sourceValue s w (.reg r) = some (s.reg r % 2 ^ w.bits) := by
  simp only [sourceValue, and_maskOf]

theorem source_imm (s : State) (w : Width) (v : Word) :
    sourceValue s w (.imm v) = some (v.toNat % 2 ^ w.bits) := by
  simp only [sourceValue, and_maskOf]

/-- The data access of a source operand read at width `w`. -/
def sourceAccess (s : State) (w : Width) : Source → Option (Nat × Width)
  | .mem m => some (effAddr s m, w)
  | .reg _ | .imm _ => none

/-- A source that cannot be read is an access beyond memory (R82, R51). -/
theorem source_none {s : State} {w : Width} {src : Source} (h : sourceValue s w src = none) :
    ∃ a, sourceAccess s w src = some (a, w) ∧ 0x10000 < a + w.bytes := by
  cases src with
  | reg r => cases h
  | imm v => cases h
  | mem m =>
    rcases memRead_cases s (effAddr s m) w with ⟨_, e⟩ | ⟨hb, _⟩
    · rw [source_mem, e] at h; cases h
    · exact ⟨_, rfl, hb⟩

theorem moveToReg_cases (d : RegId) (src : Source) (len : Nat) (s : State) :
    (sourceValue s d.width src = none ∧ moveToReg d src len s = raise s .memoryOutOfBounds len) ∨
      ∃ v, sourceValue s d.width src = some v ∧ moveToReg d src len s = complete s (s.setReg d v) len := by
  unfold moveToReg
  cases sourceValue s d.width src with
  | none => exact .inl ⟨rfl, rfl⟩
  | some v => exact .inr ⟨v, rfl, rfl⟩

theorem moveToMem_cases (m : MemOperand) (w : Width) (v : Int) (len : Nat) (s : State) :
    (0x10000 < effAddr s m + w.bytes ∧ moveToMem m w v len s = raise s .memoryOutOfBounds len) ∨
      (effAddr s m + w.bytes ≤ 0x10000 ∧
        moveToMem m w v len s = complete s { s with mem := storeBytes s.mem (effAddr s m) w v } len) := by
  unfold moveToMem
  rcases memWrite_cases s (effAddr s m) w v with ⟨h, e⟩ | ⟨h, e⟩
  · exact .inr ⟨h, by rw [e]⟩
  · exact .inl ⟨h, by rw [e]⟩

/-- The state with an `alu2`'s writes. -/
def aluWritten (op : AluOp) (d : RegId) (raw : Int) (s : State) : State :=
  (if aluWrites op then s.setReg d raw else s).setFlags raw d.width.bits

theorem alu2_cases (op : AluOp) (d : RegId) (src : Source) (len : Nat) (s : State) :
    (sourceValue s d.width src = none ∧ alu2 op d src len s = raise s .memoryOutOfBounds len) ∨
      ∃ v, sourceValue s d.width src = some v ∧
        alu2 op d src len s = complete s (aluWritten op d (aluRaw op (s.reg d) v) s) len := by
  unfold alu2
  cases sourceValue s d.width src with
  | none => exact .inl ⟨rfl, rfl⟩
  | some v => exact .inr ⟨v, rfl, rfl⟩

/-- The state with a `modifyByte`'s writes. -/
def byteWritten (a : Nat) (v : Int) (flagged : Bool) (s : State) : State :=
  let t : State := { s with mem := storeBytes s.mem a .byte v }
  if flagged then t.setFlags v 8 else t

theorem modifyByte_cases (m : MemOperand) (f : Nat → Int) (flagged : Bool) (len : Nat) (s : State) :
    (0xFFFF < effAddr s m ∧ modifyByte m f flagged len s = raise s .memoryOutOfBounds len) ∨
      (effAddr s m ≤ 0xFFFF ∧ modifyByte m f flagged len s =
        complete s (byteWritten (effAddr s m) (f (s.mem.read (effAddr s m)).toNat) flagged s) len) := by
  unfold modifyByte
  rcases memRead_cases s (effAddr s m) .byte with ⟨h, e⟩ | ⟨h, e⟩ <;> simp only [Width.bytes] at h <;> rw [e]
  · rcases memWrite_cases s (effAddr s m) .byte (f (valueAt s.mem (effAddr s m) .byte)) with ⟨_, e'⟩ | ⟨h', _⟩
    · refine .inr ⟨by omega, ?_⟩
      simp only [e']
      rfl
    · simp only [Width.bytes] at h'; omega
  · exact .inl ⟨by omega, rfl⟩

/-- The state with a `multiply`'s writes. -/
def mulWritten (w : Width) (m : Nat) (s : State) : State :=
  match w with
  | .byte => (s.setReg .ax ((s.reg .al * m : Nat) : Int)).setFlags ((s.reg .al * m : Nat) : Int)
      (mulFlagBits s.config .byte)
  | .word => ((s.setReg .dx (((s.reg .ax * m) >>> 16 : Nat) : Int)).setReg .ax
      (((s.reg .ax * m) &&& 0xFFFF : Nat) : Int)).setFlags ((s.reg .ax * m : Nat) : Int) (mulFlagBits s.config .word)

theorem multiply_eq (w : Width) (m : Nat) (len : Nat) (s : State) :
    multiply w m len s = complete s (mulWritten w m s) len := by
  cases w <;> rfl

/-- The state with a successful `divide`'s writes. -/
def divWritten (w : Width) (v : Nat) (s : State) : State :=
  match w with
  | .byte => ((s.setReg .al ((dividend .byte s / v : Nat) : Int)).setReg .ah
      ((dividend .byte s % v : Nat) : Int)).drawDivFlags
  | .word => ((s.setReg .ax ((dividend .word s / v : Nat) : Int)).setReg .dx
      ((dividend .word s % v : Nat) : Int)).drawDivFlags

theorem divide_cases (w : Width) (v : Nat) (len : Nat) (s : State) :
    (v = 0 ∧ divide w v len s = raise s .divideByZero len) ∨
      (v ≠ 0 ∧ 2 ^ w.bits ≤ dividend w s / v ∧ divide w v len s = raise s .divideOverflow len) ∨
      (v ≠ 0 ∧ dividend w s / v < 2 ^ w.bits ∧ divide w v len s = complete s (divWritten w v s) len) := by
  by_cases hv : v = 0
  · exact .inl ⟨hv, by simp [divide, hv]⟩
  · refine .inr ?_
    cases w <;> simp only [divide, hv, if_false, dividend, divWritten, Width.bits]
    · by_cases hq : s.reg .ax / v > 0xFF
      · exact .inl ⟨hv, by omega, by simp [hq]⟩
      · exact .inr ⟨hv, by omega, by simp [hq]⟩
    · by_cases hq : (s.reg .dx * 65536 + s.reg .ax) / v > 0xFFFF
      · exact .inl ⟨hv, by omega, by simp [hq]⟩
      · exact .inr ⟨hv, by omega, by simp [hq]⟩

theorem multiplyMem_cases (m : MemOperand) (len : Nat) (s : State) :
    (0xFFFF < effAddr s m ∧ multiplyMem m len s = raise s .memoryOutOfBounds len) ∨
      (effAddr s m ≤ 0xFFFF ∧
        multiplyMem m len s = complete s (mulWritten .byte (s.mem.read (effAddr s m)).toNat s) len) := by
  unfold multiplyMem
  rcases memRead_cases s (effAddr s m) .byte with ⟨h, e⟩ | ⟨h, e⟩ <;> simp only [Width.bytes] at h <;> rw [e]
  · exact .inr ⟨by omega, by rw [← multiply_eq]; rfl⟩
  · exact .inl ⟨by omega, rfl⟩

theorem divideMem_cases (m : MemOperand) (len : Nat) (s : State) :
    (0xFFFF < effAddr s m ∧ divideMem m len s = raise s .memoryOutOfBounds len) ∨
      (effAddr s m ≤ 0xFFFF ∧ divideMem m len s = divide .byte (s.mem.read (effAddr s m)).toNat len s) := by
  unfold divideMem
  rcases memRead_cases s (effAddr s m) .byte with ⟨h, e⟩ | ⟨h, e⟩ <;> simp only [Width.bytes] at h <;> rw [e]
  · exact .inr ⟨by omega, rfl⟩
  · exact .inl ⟨by omega, rfl⟩

/-- The bitwise complement at a width, by arithmetic (R156). -/
theorem complement_eq (w : Width) (v : Nat) (h : v < 2 ^ w.bits) : complement w v = 2 ^ w.bits - 1 - v := by
  unfold complement
  rw [and_maskOf, Nat.mod_eq_of_lt h, maskOf]
  have := BitVec.toNat_not (x := BitVec.ofNat w.bits v)
  rw [BitVec.not_def] at this
  simp only [BitVec.toNat_xor, BitVec.toNat_allOnes, BitVec.toNat_ofNat, Nat.mod_eq_of_lt h] at this
  exact this

/-! ### The string of INT 21h, AH = 0x09 -/

/-- A `$` after `n` other bytes within reach ends the string there (R224). -/
theorem dollarString_found {m : Memory} : ∀ {n fuel p : Nat}, n < fuel → (m.read (p + n)).toNat = 0x24 →
    (∀ k, k < n → (m.read (p + k)).toNat ≠ 0x24) →
    dollarString m p fuel = some ((List.range n).map fun k => m.read (p + k)) := by
  intro n
  induction n with
  | zero =>
    intro fuel p hf h _
    obtain ⟨f, rfl⟩ : ∃ f, fuel = f + 1 := ⟨fuel - 1, by omega⟩
    simp only [Nat.add_zero] at h
    simp [dollarString, h]
  | succ n ih =>
    intro fuel p hf h hk
    obtain ⟨f, rfl⟩ : ∃ f, fuel = f + 1 := ⟨fuel - 1, by omega⟩
    have h0 := hk 0 (by omega)
    simp only [Nat.add_zero] at h0
    have ih' := ih (fuel := f) (p := p + 1) (by omega) (by rw [← h]; congr 2; omega)
      (fun k hkn => by have := hk (k + 1) (by omega); rwa [show p + 1 + k = p + (k + 1) by omega])
    simp only [dollarString, h0, if_false, ih', Option.map_some, List.range_succ_eq_map, List.map_cons, List.map_map,
      Nat.add_zero]
    congr 2
    apply List.map_congr_left
    intro k _
    simp only [Function.comp, Nat.succ_eq_add_one]
    congr 1
    omega

/-- With no `$` within reach there is no string (R224). -/
theorem dollarString_none {m : Memory} : ∀ {fuel p : Nat}, (∀ k, k < fuel → (m.read (p + k)).toNat ≠ 0x24) →
    dollarString m p fuel = none := by
  intro fuel
  induction fuel with
  | zero => intros; rfl
  | succ f ih =>
    intro p h
    have h0 := h 0 (by omega)
    simp only [Nat.add_zero] at h0
    have := ih (p := p + 1) (fun k hk => by have := h (k + 1) (by omega); rwa [show p + 1 + k = p + (k + 1) by omega])
    simp [dollarString, h0, this]

/-- Where there is no string there is no `$` within reach (R224). -/
theorem dollar_out_of_reach {m : Memory} : ∀ {fuel p : Nat}, dollarString m p fuel = none →
    ∀ k, k < fuel → (m.read (p + k)).toNat ≠ 0x24 := by
  intro fuel
  induction fuel with
  | zero => intro p _ k hk; omega
  | succ f ih =>
    intro p h k hk
    simp only [dollarString] at h
    split at h
    · cases h
    · next h0 =>
      cases k with
      | zero => exact h0
      | succ k =>
        have := ih (Option.map_eq_none_iff.1 h) k (by omega)
        rwa [show p + 1 + k = p + (k + 1) by omega] at this

/-- INT 21h is the service call (R222). -/
theorem execInt_service (s : State) : execInt 0x21#8 s = serviceCall 2 s := by
  rw [execInt, if_pos (by decide), formatLength]

end Sys2Proof.Machine
end

