-- ==== Sys2Proof/Laws/PerInstr.lean ====
section
/-! SUPPORT. Facts about every instruction as syntax, one lemma per constructor. -/

namespace Sys2Proof.Laws.EncodedLength

/-- An instruction's encoding is as long as its format says (spec/30_encoding.md R73, R75). -/
def Statement (i : Instr) : Prop := (encode i).length = instrLength i

theorem movRR (d : RegId) (r : RegId) : Statement (.movRR d r) := rfl
theorem movRI (d : RegId) (imm : Word) : Statement (.movRI d imm) := rfl
theorem movRM (d : RegId) (addr : Word) : Statement (.movRM d addr) := rfl
theorem movRX (d : RegId) (idx : RegId) (base : Word) : Statement (.movRX d idx base) := rfl
theorem movMR (r : RegId) (addr : Word) : Statement (.movMR r addr) := rfl
theorem movXR (r : RegId) (idx : RegId) (base : Word) : Statement (.movXR r idx base) := rfl
theorem movMI (addr : Word) (imm : Byte) : Statement (.movMI addr imm) := rfl
theorem movXI (idx : RegId) (base : Word) (imm : Byte) : Statement (.movXI idx base imm) := rfl
theorem nop : Statement (.nop) := rfl
theorem addRR (d : RegId) (r : RegId) : Statement (.addRR d r) := rfl
theorem addRI (d : RegId) (imm : Word) : Statement (.addRI d imm) := rfl
theorem addRM (d : RegId) (addr : Word) : Statement (.addRM d addr) := rfl
theorem addRX (d : RegId) (idx : RegId) (base : Word) : Statement (.addRX d idx base) := rfl
theorem subRR (d : RegId) (r : RegId) : Statement (.subRR d r) := rfl
theorem subRI (d : RegId) (imm : Word) : Statement (.subRI d imm) := rfl
theorem subRM (d : RegId) (addr : Word) : Statement (.subRM d addr) := rfl
theorem subRX (d : RegId) (idx : RegId) (base : Word) : Statement (.subRX d idx base) := rfl
theorem cmpRR (d : RegId) (r : RegId) : Statement (.cmpRR d r) := rfl
theorem cmpRI (d : RegId) (imm : Word) : Statement (.cmpRI d imm) := rfl
theorem cmpRM (d : RegId) (addr : Word) : Statement (.cmpRM d addr) := rfl
theorem cmpRX (d : RegId) (idx : RegId) (base : Word) : Statement (.cmpRX d idx base) := rfl
theorem andRR (d : RegId) (r : RegId) : Statement (.andRR d r) := rfl
theorem andRI (d : RegId) (imm : Word) : Statement (.andRI d imm) := rfl
theorem andRM (d : RegId) (addr : Word) : Statement (.andRM d addr) := rfl
theorem andRX (d : RegId) (idx : RegId) (base : Word) : Statement (.andRX d idx base) := rfl
theorem orRR (d : RegId) (r : RegId) : Statement (.orRR d r) := rfl
theorem orRI (d : RegId) (imm : Word) : Statement (.orRI d imm) := rfl
theorem orRM (d : RegId) (addr : Word) : Statement (.orRM d addr) := rfl
theorem orRX (d : RegId) (idx : RegId) (base : Word) : Statement (.orRX d idx base) := rfl
theorem xorRR (d : RegId) (r : RegId) : Statement (.xorRR d r) := rfl
theorem xorRI (d : RegId) (imm : Word) : Statement (.xorRI d imm) := rfl
theorem xorRM (d : RegId) (addr : Word) : Statement (.xorRM d addr) := rfl
theorem xorRX (d : RegId) (idx : RegId) (base : Word) : Statement (.xorRX d idx base) := rfl
theorem incR (r : RegId) : Statement (.incR r) := rfl
theorem incM (addr : Word) : Statement (.incM addr) := rfl
theorem incX (idx : RegId) (base : Word) : Statement (.incX idx base) := rfl
theorem decR (r : RegId) : Statement (.decR r) := rfl
theorem decM (addr : Word) : Statement (.decM addr) := rfl
theorem decX (idx : RegId) (base : Word) : Statement (.decX idx base) := rfl
theorem notR (r : RegId) : Statement (.notR r) := rfl
theorem notM (addr : Word) : Statement (.notM addr) := rfl
theorem notX (idx : RegId) (base : Word) : Statement (.notX idx base) := rfl
theorem mulR (r : RegId) : Statement (.mulR r) := rfl
theorem mulM (addr : Word) : Statement (.mulM addr) := rfl
theorem mulX (idx : RegId) (base : Word) : Statement (.mulX idx base) := rfl
theorem divR (r : RegId) : Statement (.divR r) := rfl
theorem divM (addr : Word) : Statement (.divM addr) := rfl
theorem divX (idx : RegId) (base : Word) : Statement (.divX idx base) := rfl
theorem jmp (disp : Word) : Statement (.jmp disp) := rfl
theorem je (disp : Byte) : Statement (.je disp) := rfl
theorem jne (disp : Byte) : Statement (.jne disp) := rfl
theorem jl (disp : Byte) : Statement (.jl disp) := rfl
theorem jle (disp : Byte) : Statement (.jle disp) := rfl
theorem jg (disp : Byte) : Statement (.jg disp) := rfl
theorem jge (disp : Byte) : Statement (.jge disp) := rfl
theorem jb (disp : Byte) : Statement (.jb disp) := rfl
theorem jae (disp : Byte) : Statement (.jae disp) := rfl
theorem jbe (disp : Byte) : Statement (.jbe disp) := rfl
theorem ja (disp : Byte) : Statement (.ja disp) := rfl
theorem loop (disp : Byte) : Statement (.loop disp) := rfl
theorem hlt : Statement (.hlt) := rfl
theorem ret : Statement (.ret) := rfl
theorem int (n : Byte) : Statement (.int n) := rfl

end Sys2Proof.Laws.EncodedLength
end

