-- ==== Sys2Proof/Laws/Exec.lean ====
section
/-! SUPPORT. The inversion lemma of the machine: everything `exec` can answer, said once for all instructions
(`exec_cases`), with what an instruction's writes may touch (`Writes`). -/

namespace Sys2Proof.Machine

/-- What the writes of instruction `i`, applied to `s`, may touch: `t` is the state with them, before IP and the output
are set. -/
structure Writes (i : Instr) (s t : State) : Prop where
  segs : t.segs = s.segs
  config : t.config = s.config
  fault : t.fault = s.fault
  inert : inertFlagsKept s t
  flags : writesFlags i = false → t.flags = s.flags
  halted : t.halted = s.halted ∨ i = .hlt
  mem : t.mem = s.mem ∨
    (stores i = true ∧ ∃ a w v, dataAccess i s = some (a, w) ∧ a + w.bytes ≤ 0x10000 ∧ t.mem = storeBytes s.mem a w v)

/-- What must hold for instruction `i` to raise fault `c` from `s` (spec/60_exceptions.md R241). -/
def FaultCause (i : Instr) (s : State) : FaultCode → Prop
  | .ipOutOfBounds => transfersControl i = true ∨ 0xFFFF < s.ip.toNat + instrLength i
  | .memoryOutOfBounds => accessFaults i s
  | .divideByZero => ∃ n q, divideOperands i s = some (n, 0, q)
  | .divideOverflow => ∃ n v q, divideOperands i s = some (n, v, q) ∧ v ≠ 0 ∧ q < n / v
  | .unknownOpcode => False

/-- What instruction `i` may answer from `s`: a fault with its cause, or its writes with a next IP in range. -/
def Answers (i : Instr) (s : State) (o : Result) : Prop :=
  (∃ c len, o = raise s c len ∧ (c.isDivide = true → len = instrLength i) ∧ FaultCause i s c) ∨
    ∃ t next out, o = .next { t with ip := BitVec.ofInt 16 next, output := out } ∧ 0 ≤ next ∧ next ≤ 0xFFFF ∧
      Writes i s t ∧ (transfersControl i = false → next = (s.ip.toNat : Int) + instrLength i) ∧
      (out = none ∨ (i = .int 0x21#8 ∧ (s.reg .ah = 2 ∨ s.reg .ah = 9)))

theorem answers_raise {i : Instr} {s : State} (c : FaultCode) (len : Nat) (h : c.isDivide = true → len = instrLength i)
    (hc : FaultCause i s c) : Answers i s (raise s c len) := .inl ⟨c, len, rfl, h, hc⟩

/-- A data access beyond memory raises `MemoryOutOfBounds`. -/
theorem answers_access {i : Instr} {s : State} {a : Nat} {w : Width} (len : Nat) (ha : dataAccess i s = some (a, w))
    (hb : 0x10000 < a + w.bytes) : Answers i s (raise s .memoryOutOfBounds len) :=
  answers_raise _ _ nofun (.inl ⟨a, w, ha, hb⟩)

theorem answers_commit {i : Instr} {s t : State} {next : Int} {out : Option (List Byte)} (hw : Writes i s t)
    (hn : transfersControl i = false → next = (s.ip.toNat : Int) + instrLength i)
    (ho : out = none ∨ (i = .int 0x21#8 ∧ (s.reg .ah = 2 ∨ s.reg .ah = 9))) : Answers i s (commit s t next out) := by
  rcases commit_cases s t next out with ⟨h0, h1, e⟩ | ⟨h, e⟩ <;> rw [e]
  · exact .inr ⟨t, next, out, rfl, h0, h1, hw, hn, ho⟩
  · refine answers_raise _ _ nofun ?_
    cases ht : transfersControl i
    · exact .inr (by have := hn ht; omega)
    · exact .inl ht

theorem answers_complete {i : Instr} {s t : State} {len : Nat} (hw : Writes i s t) (hl : len = instrLength i) :
    Answers i s (complete s t len) := by
  subst hl
  exact answers_commit hw (fun _ => rfl) (.inl rfl)

/-- Writes that touch registers only. -/
theorem writes_regs (i : Instr) (s : State) (g : Regs) : Writes i s { s with regs := g } :=
  ⟨rfl, rfl, rfl, ⟨rfl, rfl, rfl, rfl, rfl, rfl⟩, (fun _ => rfl), .inl rfl, .inl rfl⟩

/-- Writes of a flag-writing instruction that touch registers and flags only. -/
theorem writes_regs_flags {i : Instr} {s t : State} (h : writesFlags i = true) (hs : t.segs = s.segs)
    (hc : t.config = s.config) (hf : t.fault = s.fault) (hi : inertFlagsKept s t) (hh : t.halted = s.halted)
    (hm : t.mem = s.mem) : Writes i s t :=
  ⟨hs, hc, hf, hi, (fun h' => by rw [h] at h'; cases h'), .inl hh, .inl hm⟩

theorem answers_moveToReg {i : Instr} {s : State} {d : RegId} {src : Source} {len : Nat} (hl : len = instrLength i)
    (ha : dataAccess i s = sourceAccess s d.width src) : Answers i s (moveToReg d src len s) := by
  rcases moveToReg_cases d src len s with ⟨hn, e⟩ | ⟨v, _, e⟩ <;> rw [e]
  · obtain ⟨a, h, hb⟩ := source_none hn
    exact answers_access _ (ha.trans h) hb
  · exact answers_complete (writes_regs i s _) hl

theorem answers_moveToMem {i : Instr} {s : State} {m : MemOperand} {w : Width} {v : Int} {len : Nat}
    (hl : len = instrLength i) (hs : stores i = true) (ha : dataAccess i s = some (effAddr s m, w)) :
    Answers i s (moveToMem m w v len s) := by
  rcases moveToMem_cases m w v len s with ⟨hb, e⟩ | ⟨hb, e⟩ <;> rw [e]
  · exact answers_access _ ha hb
  · exact answers_complete ⟨rfl, rfl, rfl, ⟨rfl, rfl, rfl, rfl, rfl, rfl⟩, (fun _ => rfl), .inl rfl,
      .inr ⟨hs, _, w, v, ha, hb, rfl⟩⟩ hl

theorem aluWritten_regs_flags (op : AluOp) (d : RegId) (raw : Int) (s : State) :
    aluWritten op d raw s = { s with
      regs := if aluWrites op then writeReg s.regs d raw else s.regs
      flags := Sys2Proof.Machine.setFlags s.flags raw d.width.bits } := by
  unfold aluWritten
  cases aluWrites op <;> rfl

theorem answers_alu2 {i : Instr} {s : State} {op : AluOp} {d : RegId} {src : Source} {len : Nat}
    (hl : len = instrLength i) (hf : writesFlags i = true) (ha : dataAccess i s = sourceAccess s d.width src) :
    Answers i s (alu2 op d src len s) := by
  rcases alu2_cases op d src len s with ⟨hn, e⟩ | ⟨v, _, e⟩ <;> rw [e]
  · obtain ⟨a, h, hb⟩ := source_none hn
    exact answers_access _ (ha.trans h) hb
  · rw [aluWritten_regs_flags]
    exact answers_complete (writes_regs_flags hf rfl rfl rfl ⟨rfl, rfl, rfl, rfl, rfl, rfl⟩ rfl rfl) hl

theorem answers_modifyByte {i : Instr} {s : State} {m : MemOperand} {f : Nat → Int} {flagged : Bool} {len : Nat}
    (hl : len = instrLength i) (hs : stores i = true) (hf : writesFlags i = flagged)
    (ha : dataAccess i s = some (effAddr s m, .byte)) : Answers i s (modifyByte m f flagged len s) := by
  rcases modifyByte_cases m f flagged len s with ⟨hb, e⟩ | ⟨hb, e⟩ <;> rw [e]
  · exact answers_access _ ha (by simp only [Width.bytes]; omega)
  · refine answers_complete ?_ hl
    cases flagged
    · exact ⟨rfl, rfl, rfl, ⟨rfl, rfl, rfl, rfl, rfl, rfl⟩, (fun _ => rfl), .inl rfl,
        .inr ⟨hs, _, _, _, ha, by simp only [Width.bytes]; omega, rfl⟩⟩
    · exact ⟨rfl, rfl, rfl, ⟨rfl, rfl, rfl, rfl, rfl, rfl⟩, (fun h => by rw [hf] at h; cases h), .inl rfl,
        .inr ⟨hs, _, _, _, ha, by simp only [Width.bytes]; omega, rfl⟩⟩

theorem writes_mulWritten {i : Instr} (w : Width) (m : Nat) (s : State) (hf : writesFlags i = true) :
    Writes i s (mulWritten w m s) := by
  cases w <;> exact writes_regs_flags hf rfl rfl rfl ⟨rfl, rfl, rfl, rfl, rfl, rfl⟩ rfl rfl

theorem writes_divWritten {i : Instr} (w : Width) (v : Nat) (s : State) (hf : writesFlags i = true) :
    Writes i s (divWritten w v s) := by
  cases w <;> exact writes_regs_flags hf rfl rfl rfl ⟨rfl, rfl, rfl, rfl, rfl, rfl⟩ rfl rfl

theorem answers_divide {i : Instr} {s : State} {w : Width} {v len : Nat} (hl : len = instrLength i)
    (hf : writesFlags i = true) (hd : divideOperands i s = some (dividend w s, v, 2 ^ w.bits - 1)) :
    Answers i s (divide w v len s) := by
  rcases divide_cases w v len s with ⟨rfl, e⟩ | ⟨hv, hq, e⟩ | ⟨_, _, e⟩ <;> rw [e]
  · exact answers_raise _ _ (fun _ => hl) ⟨_, _, hd⟩
  · exact answers_raise _ _ (fun _ => hl) ⟨_, _, _, hd, hv, by have := Nat.two_pow_pos w.bits; omega⟩
  · exact answers_complete (writes_divWritten w v s hf) hl

theorem answers_multiply {i : Instr} {s : State} {w : Width} {m len : Nat} (hl : len = instrLength i)
    (hf : writesFlags i = true) : Answers i s (multiply w m len s) := by
  rw [multiply_eq]
  exact answers_complete (writes_mulWritten w m s hf) hl

theorem answers_multiplyMem {i : Instr} {s : State} {m : MemOperand} {len : Nat} (hl : len = instrLength i)
    (hf : writesFlags i = true) (ha : dataAccess i s = some (effAddr s m, .byte)) :
    Answers i s (multiplyMem m len s) := by
  rcases multiplyMem_cases m len s with ⟨hb, e⟩ | ⟨_, e⟩ <;> rw [e]
  · exact answers_access _ ha (by simp only [Width.bytes]; omega)
  · exact answers_complete (writes_mulWritten _ _ s hf) hl

theorem answers_divideMem {i : Instr} {s : State} {m : MemOperand} {len : Nat} (hl : len = instrLength i)
    (hf : writesFlags i = true) (ha : dataAccess i s = some (effAddr s m, .byte))
    (hd : divideOperands i s = some (dividend .byte s, (s.mem.read (effAddr s m)).toNat, 2 ^ Width.byte.bits - 1)) :
    Answers i s (divideMem m len s) := by
  rcases divideMem_cases m len s with ⟨hb, e⟩ | ⟨_, e⟩ <;> rw [e]
  · exact answers_access _ ha (by simp only [Width.bytes]; omega)
  · exact answers_divide hl hf hd

theorem answers_jumpRel {i : Instr} {s t : State} {taken : Bool} {len : Nat} {disp : Int}
    (ht : transfersControl i = true) (hw : Writes i s t) : Answers i s (jumpRel s t taken len disp) :=
  answers_commit hw (fun h => by rw [ht] at h; cases h) (.inl rfl)

theorem answers_same {i : Instr} {s : State} {len : Nat} (hl : len = instrLength i) :
    Answers i s (complete s s len) := answers_complete (writes_regs i s s.regs) hl

theorem answers_int (n : Byte) (s : State) : Answers (.int n) s (execInt n s) := by
  unfold execInt
  split
  · next hn =>
    have hn' : n = 0x21#8 := BitVec.eq_of_toNat_eq (hn.trans (by decide))
    subst hn'
    unfold serviceCall
    split
    · next ha => exact answers_commit (writes_regs _ s s.regs) (fun _ => rfl) (.inr ⟨rfl, .inl ha⟩)
    · split
      · next ha =>
        unfold emitString
        cases hd : dollarString s.mem (s.reg .dx) (0x10000 - s.reg .dx) with
        | none =>
          refine answers_raise _ _ nofun (.inr ⟨rfl, ha, fun a h0 h1 => ?_⟩)
          have := dollar_out_of_reach hd (a - s.reg .dx) (by omega)
          rwa [show s.reg .dx + (a - s.reg .dx) = a by omega] at this
        | some str => exact answers_commit (writes_regs _ s s.regs) (fun _ => rfl) (.inr ⟨rfl, .inr ha⟩)
      · exact answers_same rfl
  · exact answers_same rfl

/-- Everything `exec` can answer. -/
theorem exec_cases (i : Instr) (s : State) : Answers i s (exec i s) := by
  cases i with
  | movRR d r => rw [exec, execMovRR]; exact answers_moveToReg rfl rfl
  | movRI d imm => rw [exec, execMovRI]; exact answers_moveToReg rfl rfl
  | movRM d addr => rw [exec, execMovRM]; exact answers_moveToReg rfl rfl
  | movRX d idx base => rw [exec, execMovRX]; exact answers_moveToReg rfl rfl
  | movMR r addr => rw [exec, execMovMR]; exact answers_moveToMem rfl rfl rfl
  | movXR r idx base => rw [exec, execMovXR]; exact answers_moveToMem rfl rfl rfl
  | movMI addr imm => rw [exec, execMovMI]; exact answers_moveToMem rfl rfl rfl
  | movXI idx base imm => rw [exec, execMovXI]; exact answers_moveToMem rfl rfl rfl
  | nop => rw [exec, execNop]; exact answers_same rfl
  | addRR d r => rw [exec, execAddRR]; exact answers_alu2 rfl rfl rfl
  | addRI d imm => rw [exec, execAddRI]; exact answers_alu2 rfl rfl rfl
  | addRM d addr => rw [exec, execAddRM]; exact answers_alu2 rfl rfl rfl
  | addRX d idx base => rw [exec, execAddRX]; exact answers_alu2 rfl rfl rfl
  | subRR d r => rw [exec, execSubRR]; exact answers_alu2 rfl rfl rfl
  | subRI d imm => rw [exec, execSubRI]; exact answers_alu2 rfl rfl rfl
  | subRM d addr => rw [exec, execSubRM]; exact answers_alu2 rfl rfl rfl
  | subRX d idx base => rw [exec, execSubRX]; exact answers_alu2 rfl rfl rfl
  | cmpRR d r => rw [exec, execCmpRR]; exact answers_alu2 rfl rfl rfl
  | cmpRI d imm => rw [exec, execCmpRI]; exact answers_alu2 rfl rfl rfl
  | cmpRM d addr => rw [exec, execCmpRM]; exact answers_alu2 rfl rfl rfl
  | cmpRX d idx base => rw [exec, execCmpRX]; exact answers_alu2 rfl rfl rfl
  | andRR d r => rw [exec, execAndRR]; exact answers_alu2 rfl rfl rfl
  | andRI d imm => rw [exec, execAndRI]; exact answers_alu2 rfl rfl rfl
  | andRM d addr => rw [exec, execAndRM]; exact answers_alu2 rfl rfl rfl
  | andRX d idx base => rw [exec, execAndRX]; exact answers_alu2 rfl rfl rfl
  | orRR d r => rw [exec, execOrRR]; exact answers_alu2 rfl rfl rfl
  | orRI d imm => rw [exec, execOrRI]; exact answers_alu2 rfl rfl rfl
  | orRM d addr => rw [exec, execOrRM]; exact answers_alu2 rfl rfl rfl
  | orRX d idx base => rw [exec, execOrRX]; exact answers_alu2 rfl rfl rfl
  | xorRR d r => rw [exec, execXorRR]; exact answers_alu2 rfl rfl rfl
  | xorRI d imm => rw [exec, execXorRI]; exact answers_alu2 rfl rfl rfl
  | xorRM d addr => rw [exec, execXorRM]; exact answers_alu2 rfl rfl rfl
  | xorRX d idx base => rw [exec, execXorRX]; exact answers_alu2 rfl rfl rfl
  | incR r => rw [exec, execIncR]; exact answers_alu2 rfl rfl rfl
  | incM addr => rw [exec, execIncM]; exact answers_modifyByte rfl rfl rfl rfl
  | incX idx base => rw [exec, execIncX]; exact answers_modifyByte rfl rfl rfl rfl
  | decR r => rw [exec, execDecR]; exact answers_alu2 rfl rfl rfl
  | decM addr => rw [exec, execDecM]; exact answers_modifyByte rfl rfl rfl rfl
  | decX idx base => rw [exec, execDecX]; exact answers_modifyByte rfl rfl rfl rfl
  | notR r => rw [exec, execNotR]; exact answers_complete (writes_regs _ s _) rfl
  | notM addr => rw [exec, execNotM]; exact answers_modifyByte rfl rfl rfl rfl
  | notX idx base => rw [exec, execNotX]; exact answers_modifyByte rfl rfl rfl rfl
  | mulR r => rw [exec, execMulR]; exact answers_multiply rfl rfl
  | mulM addr => rw [exec, execMulM]; exact answers_multiplyMem rfl rfl rfl
  | mulX idx base => rw [exec, execMulX]; exact answers_multiplyMem rfl rfl rfl
  | divR r => rw [exec, execDivR]; exact answers_divide rfl rfl rfl
  | divM addr => rw [exec, execDivM]; exact answers_divideMem rfl rfl rfl rfl
  | divX idx base => rw [exec, execDivX]; exact answers_divideMem rfl rfl rfl rfl
  | jmp disp => rw [exec, execJmp]; exact answers_jumpRel rfl (writes_regs _ s s.regs)
  | je disp => rw [exec, execJe]; exact answers_jumpRel rfl (writes_regs _ s s.regs)
  | jne disp => rw [exec, execJne]; exact answers_jumpRel rfl (writes_regs _ s s.regs)
  | jl disp => rw [exec, execJl]; exact answers_jumpRel rfl (writes_regs _ s s.regs)
  | jle disp => rw [exec, execJle]; exact answers_jumpRel rfl (writes_regs _ s s.regs)
  | jg disp => rw [exec, execJg]; exact answers_jumpRel rfl (writes_regs _ s s.regs)
  | jge disp => rw [exec, execJge]; exact answers_jumpRel rfl (writes_regs _ s s.regs)
  | jb disp => rw [exec, execJb]; exact answers_jumpRel rfl (writes_regs _ s s.regs)
  | jae disp => rw [exec, execJae]; exact answers_jumpRel rfl (writes_regs _ s s.regs)
  | jbe disp => rw [exec, execJbe]; exact answers_jumpRel rfl (writes_regs _ s s.regs)
  | ja disp => rw [exec, execJa]; exact answers_jumpRel rfl (writes_regs _ s s.regs)
  | loop disp => rw [exec, execLoop]; exact answers_jumpRel rfl (writes_regs _ s _)
  | hlt => rw [exec, execHlt]; exact answers_complete ⟨rfl, rfl, rfl, ⟨rfl, rfl, rfl, rfl, rfl, rfl⟩, (fun _ => rfl), .inr rfl, .inl rfl⟩ rfl
  | ret => rw [exec, execRet]; exact answers_same rfl
  | int n => rw [exec, execInt]; exact answers_int _ s

end Sys2Proof.Machine
end

