-- ==== Sys2Proof/Laws/Fetch.lean ====
section
/-! SUPPORT. The instruction stream: what the fetched bytes are, what a step can do, and what it does with bytes that are
no instruction. -/

namespace Sys2Proof.Machine

/-- The fetch stops after `n` bytes or at the end of memory (R71). -/
theorem fetchFrom_length (m : Memory) (n : Nat) : ∀ a, (fetchFrom m a n).length = min n (0x10000 - a) := by
  induction n with
  | zero => simp [fetchFrom]
  | succ n ih =>
    intro a
    simp only [fetchFrom]
    split
    · simp only [List.length_cons, ih]; omega
    · simp; omega

/-- The fetched bytes are those of memory. -/
theorem fetchFrom_getElem (m : Memory) (n : Nat) : ∀ a k, ∀ h : k < (fetchFrom m a n).length, (fetchFrom m a n)[k] = m.read (a + k) := by
  induction n with
  | zero => intro a k h; simp [fetchFrom] at h
  | succ n ih =>
    intro a k h
    simp only [fetchFrom] at h ⊢
    split at h
    · rename_i ha
      simp only [if_pos ha]
      cases k with
      | zero => rfl
      | succ k => simp only [List.getElem_cons_succ]; rw [ih]; congr 1; omega
    · simp at h

/-- Bytes that stand in memory are what a fetch starts with. -/
theorem fetchFrom_of_bytesAt (m : Memory) (l : List Byte) : ∀ (n a : Nat), l.length ≤ n → a + l.length ≤ 0x10000 → bytesAt m a l → ∃ r, fetchFrom m a n = l ++ r := by
  induction l with
  | nil => intro n a _ _ _; exact ⟨_, rfl⟩
  | cons b l ih =>
    intro n a hn ha hb
    obtain ⟨k, rfl⟩ : ∃ k, n = k + 1 := ⟨n - 1, by simp at hn; omega⟩
    simp only [List.length_cons] at hn ha
    obtain ⟨r, hr⟩ := ih k (a+1) (by omega) (by omega) (fun j hj => by
      have := hb (j+1) (by simpa using hj)
      rw [show a + 1 + j = a + (j+1) by omega, this]; rfl)
    refine ⟨r, ?_⟩
    have := hb 0 (by simp)
    simp only [fetchFrom, if_pos (show a ≤ 0xFFFF by omega), hr]
    simp at this; simp [this]

/-- The first byte fetched is the one at IP. -/
theorem fetchBytes_cons (s : State) : fetchBytes s = s.mem.read s.ip.toNat :: fetchFrom s.mem (s.ip.toNat + 1) 4 := by
  have := s.ip.isLt
  simp only [fetchBytes, fetchFrom, if_pos (show s.ip.toNat ≤ 0xFFFF by omega)]

/-- What a step that answers a next state has done: run a decoded instruction, or met bytes that are none. -/
theorem step_cases {s t} (hr : step s = .next t) : s.runnable ∧ ((∃ i rest, decode (fetchBytes s) = .ok (i, rest) ∧ exec i s = .next t) ∨ ∃ e, decode (fetchBytes s) = .error e ∧ undecodable e s = .next t) := by
  unfold step at hr
  split at hr
  · cases hr
  · rename_i hh
    split at hr
    · cases hr
    · rename_i hf
      refine ⟨⟨by simpa using hh, hf⟩, ?_⟩
      unfold fetchInstr at hr
      cases hd : decode (fetchBytes s) with
      | ok p => rw [hd] at hr; exact .inl ⟨p.1, p.2, rfl, hr⟩
      | error e => rw [hd] at hr; exact .inr ⟨e, rfl, hr⟩

theorem step_error {s e} (hr : s.runnable) (h : decode (fetchBytes s) = .error e) : step s = undecodable e s := by
  simp [step, hr.1, hr.2, fetchInstr, h]

/-- Bytes that are no instruction fault, but for an unassigned opcode under `Nop` (R71, R79, R85). -/
theorem undecodable_cases (e : DecodeError) (s : State) : (∃ c, c.isDivide = false ∧ undecodable e s = raise s c 0) ∨ undecodable e s = .next { s with ip := BitVec.ofNat 16 (s.ip.toNat + 1), output := none } := by
  unfold undecodable
  cases e with
  | truncated => exact .inl ⟨_, rfl, rfl⟩
  | badRegId => exact .inl ⟨_, rfl, rfl⟩
  | unassigned =>
    cases s.config.unknownOpcode with
    | fault => exact .inl ⟨_, rfl, rfl⟩
    | nop =>
      rcases complete_cases s s 1 with ⟨_, h⟩ | ⟨_, h⟩
      · exact .inr h
      · exact .inl ⟨_, rfl, h⟩

end Sys2Proof.Machine
end

