-- ==== Sys2Proof/Laws/Flags.lean ====
section
/-! SUPPORT. `SetFlags` (spec/10_state.md R31) in terms of remainders. -/

namespace Sys2Proof.Machine

/-- ZF, SF and CF after `SetFlags`, by arithmetic alone. -/
theorem setFlags_flagsOfRaw (s : State) (raw : Int) (bits : Nat) (hb : 0 < bits) : flagsOfRaw s (s.setFlags raw bits) raw bits := by
  have hp : (0:Int) < 2 ^ bits := by positivity
  have h0 := Int.emod_nonneg raw (ne_of_gt hp)
  have hlt := Int.emod_lt_of_pos raw hp
  refine ⟨?_, ?_, ?_, rfl, rfl, rfl, rfl, rfl, rfl⟩
  · simp only [State.setFlags, Sys2Proof.Machine.setFlags]; apply decide_eq_decide.2; push_cast; omega
  · simp only [State.setFlags, Sys2Proof.Machine.setFlags]; apply decide_eq_decide.2; push_cast
    obtain ⟨k, rfl⟩ : ∃ k, bits = k + 1 := ⟨bits - 1, by omega⟩
    obtain ⟨r, hr⟩ : ∃ r : Nat, raw % 2 ^ (k+1) = r := ⟨(raw % 2 ^ (k+1)).toNat, by omega⟩
    rw [hr] at hlt ⊢
    have hlt' : r < 2 ^ (k+1) := by exact_mod_cast hlt
    simp only [Int.toNat_natCast, Nat.add_sub_cancel]
    have : (2:Int)^k ≤ r ↔ 2^k ≤ r := by exact_mod_cast Iff.rfl
    rw [this, Nat.and_two_pow]
    have hb : r.testBit k = decide (2^k ≤ r) := by
      rw [Nat.testBit_eq_decide_div_mod_eq]
      apply decide_eq_decide.2
      have : r / 2^k < 2 := by rw [Nat.div_lt_iff_lt_mul (by positivity)]; rw [pow_succ] at hlt'; omega
      constructor
      · intro h; by_contra hc; rw [Nat.div_eq_of_lt (by omega)] at h; simp at h
      · intro h; have : 1 ≤ r / 2^k := (Nat.one_le_div_iff (by positivity)).2 h; omega
    rw [hb]
    by_cases h : 2^k ≤ r <;> simp [h]
  · simp only [State.setFlags, Sys2Proof.Machine.setFlags, maskOf]; apply decide_eq_decide.2
    have : ((2 ^ bits - 1 : Nat) : Int) = 2^bits - 1 := by
      have : 1 ≤ 2 ^ bits := Nat.one_le_two_pow
      push_cast [this]; rfl
    rw [this]

end Sys2Proof.Machine
end

