-- ==== Sys2Proof/Tests/Slice0.lean ====
section
/-! SUPPORT. Tests: ill-formed terms are refused, words written out from the spec decode to their instructions, single
steps give what the spec's examples say, and for every statement with hypotheses a state and operands that meet them.
The expected values come from the examples of the rules of spec/ and from spec/95_test_vectors.md. -/

namespace Sys2Proof.Tests

open Sys2Proof Sys2Proof.Machine

/-! ### Ill-formed terms (spec/30_encoding.md R71, R79, R85) -/

/-- Why bytes are refused. -/
def refusal : Decoded → Option DecodeError
  | .ok _ => none
  | .error e => some e

theorem test_wellFormed_refuses_register_byte_sixteen : regIdByteOk 0x10#8 = false ∧ regIdByteOk 0xFF#8 = false := by
  decide

theorem test_wellFormed_accepts_register_byte_fifteen : regIdByteOk 0x0F#8 = true := by decide

theorem test_decode_refuses_register_bytes :
    refusal (decode [0x11#8, 0x10#8, 0x09#8, 0x00#8]) = some (.badRegId 0x10#8) ∧
    refusal (decode [0x8A#8, 0x00#8, 0x1E#8, 0x0A#8, 0x01#8]) = some (.badRegId 0x1E#8) ∧
    refusal (decode [0x40#8, 0x80#8]) = some (.badRegId 0x80#8) := by decide

theorem test_decode_refuses_unassigned_opcodes :
    refusal (decode [0x00#8]) = some (.unassigned 0x00#8) ∧ refusal (decode [0x3C#8]) = some (.unassigned 0x3C#8) ∧
    refusal (decode [0x42#8]) = some (.unassigned 0x42#8) ∧ refusal (decode [0x78#8]) = some (.unassigned 0x78#8) ∧
    refusal (decode [0xFF#8]) = some (.unassigned 0xFF#8) := by decide

theorem test_decode_refuses_short_bytes :
    refusal (decode []) = some .truncated ∧ refusal (decode [0x10#8]) = some .truncated ∧
    refusal (decode [0x11#8, 0x10#8, 0x09#8]) = some .truncated := by decide

/-! ### Decoding: a word for every constructor, written out from its rule's encoding -/

/-- The words of spec/40_data_transfer.md, for the MOV family and NOP. -/
theorem test_decode_mov :
    decode [0x10#8, 0x07#8] = .ok (.movRR .al .bh, []) ∧
    decode [0x11#8, 0x04#8, 0x09#8, 0x00#8] = .ok (.movRI .ah 0x0009#16, []) ∧
    decode [0x8B#8, 0x08#8, 0x00#8, 0x02#8] = .ok (.movRM .ax 0x0200#16, []) ∧
    decode [0x8A#8, 0x00#8, 0x0E#8, 0x0A#8, 0x01#8] = .ok (.movRX .al .si 0x010A#16, []) ∧
    decode [0x89#8, 0x08#8, 0x00#8, 0x02#8] = .ok (.movMR .ax 0x0200#16, []) ∧
    decode [0x88#8, 0x01#8, 0x0B#8, 0x00#8, 0x03#8] = .ok (.movXR .cl .bx 0x0300#16, []) ∧
    decode [0xC6#8, 0x00#8, 0x03#8, 0x7F#8] = .ok (.movMI 0x0300#16 0x7F#8, []) ∧
    decode [0xC7#8, 0x0E#8, 0x01#8, 0x00#8, 0x05#8] = .ok (.movXI .si 0x0001#16 0x05#8, []) ∧
    decode [0x90#8] = .ok (.nop, []) := by
  exact ⟨rfl, rfl, rfl, rfl, rfl, rfl, rfl, rfl, rfl⟩

/-- The words of spec/41_arith_logic.md, for ADD, SUB and CMP. -/
theorem test_decode_add_sub :
    decode [0x20#8, 0x03#8] = .ok (.addRR .al .bl, []) ∧
    decode [0x21#8, 0x08#8, 0x01#8, 0x00#8] = .ok (.addRI .ax 0x0001#16, []) ∧
    decode [0x24#8, 0x08#8, 0x00#8, 0x02#8] = .ok (.addRM .ax 0x0200#16, []) ∧
    decode [0x25#8, 0x00#8, 0x0E#8, 0x00#8, 0x03#8] = .ok (.addRX .al .si 0x0300#16, []) ∧
    decode [0x30#8, 0x8B#8] = .ok (.subRR .ax .bx, []) ∧
    decode [0x31#8, 0x00#8, 0x01#8, 0x00#8] = .ok (.subRI .al 0x0001#16, []) ∧
    decode [0x34#8, 0x09#8, 0x00#8, 0x02#8] = .ok (.subRM .cx 0x0200#16, []) ∧
    decode [0x35#8, 0x02#8, 0x0B#8, 0x00#8, 0x03#8] = .ok (.subRX .dl .bx 0x0300#16, []) ∧
    decode [0x38#8, 0x8B#8] = .ok (.cmpRR .ax .bx, []) ∧
    decode [0x39#8, 0x00#8, 0x01#8, 0x00#8] = .ok (.cmpRI .al 0x0001#16, []) ∧
    decode [0x3A#8, 0x08#8, 0x00#8, 0x02#8] = .ok (.cmpRM .ax 0x0200#16, []) ∧
    decode [0x3B#8, 0x03#8, 0x0E#8, 0x00#8, 0x03#8] = .ok (.cmpRX .bl .si 0x0300#16, []) := by
  exact ⟨rfl, rfl, rfl, rfl, rfl, rfl, rfl, rfl, rfl, rfl, rfl, rfl⟩

/-- The words of spec/41_arith_logic.md, for AND, OR and XOR. -/
theorem test_decode_logic :
    decode [0x22#8, 0x8B#8] = .ok (.andRR .ax .bx, []) ∧
    decode [0x23#8, 0x00#8, 0x0F#8, 0x00#8] = .ok (.andRI .al 0x000F#16, []) ∧
    decode [0x26#8, 0x04#8, 0x00#8, 0x02#8] = .ok (.andRM .ah 0x0200#16, []) ∧
    decode [0x27#8, 0x09#8, 0x0F#8, 0x00#8, 0x03#8] = .ok (.andRX .cx .di 0x0300#16, []) ∧
    decode [0x0A#8, 0x03#8] = .ok (.orRR .al .bl, []) ∧
    decode [0x0B#8, 0x08#8, 0x00#8, 0x00#8] = .ok (.orRI .ax 0x0000#16, []) ∧
    decode [0x0C#8, 0x0A#8, 0x00#8, 0x02#8] = .ok (.orRM .dx 0x0200#16, []) ∧
    decode [0x0D#8, 0x03#8, 0x0E#8, 0x00#8, 0x03#8] = .ok (.orRX .bl .si 0x0300#16, []) ∧
    decode [0x32#8, 0x88#8] = .ok (.xorRR .ax .ax, []) ∧
    decode [0x33#8, 0x00#8, 0xFF#8, 0x00#8] = .ok (.xorRI .al 0x00FF#16, []) ∧
    decode [0x36#8, 0x0B#8, 0x00#8, 0x02#8] = .ok (.xorRM .bx 0x0200#16, []) ∧
    decode [0x37#8, 0x05#8, 0x0B#8, 0x00#8, 0x03#8] = .ok (.xorRX .ch .bx 0x0300#16, []) := by
  exact ⟨rfl, rfl, rfl, rfl, rfl, rfl, rfl, rfl, rfl, rfl, rfl, rfl⟩

/-- The words of spec/41_arith_logic.md, for INC, DEC and NOT. -/
theorem test_decode_one_operand :
    decode [0x40#8, 0x08#8] = .ok (.incR .ax, []) ∧
    decode [0xA4#8, 0x00#8, 0x02#8] = .ok (.incM 0x0200#16, []) ∧
    decode [0xA5#8, 0x0E#8, 0x00#8, 0x03#8] = .ok (.incX .si 0x0300#16, []) ∧
    decode [0x41#8, 0x01#8] = .ok (.decR .cl, []) ∧
    decode [0xA6#8, 0x00#8, 0x02#8] = .ok (.decM 0x0200#16, []) ∧
    decode [0xA7#8, 0x0B#8, 0x00#8, 0x03#8] = .ok (.decX .bx 0x0300#16, []) ∧
    decode [0xF8#8, 0x08#8] = .ok (.notR .ax, []) ∧
    decode [0xA8#8, 0x00#8, 0x02#8] = .ok (.notM 0x0200#16, []) ∧
    decode [0xA9#8, 0x0F#8, 0x00#8, 0x03#8] = .ok (.notX .di 0x0300#16, []) := by
  exact ⟨rfl, rfl, rfl, rfl, rfl, rfl, rfl, rfl, rfl⟩

/-- The words of spec/42_mul_div.md, for MUL and DIV. -/
theorem test_decode_mul_div :
    decode [0xF6#8, 0x0B#8] = .ok (.mulR .bx, []) ∧
    decode [0xAA#8, 0x00#8, 0x02#8] = .ok (.mulM 0x0200#16, []) ∧
    decode [0xAB#8, 0x0E#8, 0x00#8, 0x03#8] = .ok (.mulX .si 0x0300#16, []) ∧
    decode [0xF7#8, 0x03#8] = .ok (.divR .bl, []) ∧
    decode [0xAC#8, 0x00#8, 0x02#8] = .ok (.divM 0x0200#16, []) ∧
    decode [0xAD#8, 0x0B#8, 0x00#8, 0x03#8] = .ok (.divX .bx 0x0300#16, []) := by
  exact ⟨rfl, rfl, rfl, rfl, rfl, rfl⟩

/-- The words of spec/43_control.md, for the control transfers. -/
theorem test_decode_control :
    decode [0xE9#8, 0xFD#8, 0x00#8] = .ok (.jmp 0x00FD#16, []) ∧
    decode [0x74#8, 0x05#8] = .ok (.je 0x05#8, []) ∧
    decode [0x75#8, 0xFE#8] = .ok (.jne 0xFE#8, []) ∧
    decode [0x7C#8, 0x01#8] = .ok (.jl 0x01#8, []) ∧
    decode [0x7E#8, 0x10#8] = .ok (.jle 0x10#8, []) ∧
    decode [0x7F#8, 0x10#8] = .ok (.jg 0x10#8, []) ∧
    decode [0x7D#8, 0xF0#8] = .ok (.jge 0xF0#8, []) ∧
    decode [0x72#8, 0x02#8] = .ok (.jb 0x02#8, []) ∧
    decode [0x73#8, 0x02#8] = .ok (.jae 0x02#8, []) ∧
    decode [0x76#8, 0x04#8] = .ok (.jbe 0x04#8, []) ∧
    decode [0x77#8, 0x04#8] = .ok (.ja 0x04#8, []) ∧
    decode [0xE2#8, 0xFC#8] = .ok (.loop 0xFC#8, []) := by
  exact ⟨rfl, rfl, rfl, rfl, rfl, rfl, rfl, rfl, rfl, rfl, rfl, rfl⟩

/-- The words of spec/44_system.md, for HLT, RET and INT. -/
theorem test_decode_system :
    decode [0xF4#8] = .ok (.hlt, []) ∧
    decode [0xC3#8] = .ok (.ret, []) ∧
    decode [0xCD#8, 0x21#8] = .ok (.int 0x21#8, []) := by
  exact ⟨rfl, rfl, rfl⟩

/-- The bytes after an instruction are left over. -/
theorem test_decode_leaves_the_rest : decode [0x90#8, 0xF4#8, 0x00#8] = .ok (.nop, [0xF4#8, 0x00#8]) := rfl

/-- The host's view of the decoder: bit 0 is the lowest bit of the opcode byte. -/
theorem test_decodeTableWord :
    decodeTableWord 16 0x8B10 = some (.movRR .ax .bx) ∧ decodeTableWord 40 0x010A0E008A = some (.movRX .al .si 0x010A#16) ∧
    decodeTableWord 8 0x11 = some (.movRI .al 0x0000#16) ∧ decodeTableWord 8 0x00 = none := by decide

/-- A word placed where the step fetches is what the step runs. -/
theorem test_withFetchWord :
    step (State.reset.withFetchWord 16 0x8B10) = exec (.movRR .ax .bx) (State.reset.withFetchWord 16 0x8B10) ∧
    step (State.reset.withFetchWord 8 0xF4) = exec .hlt (State.reset.withFetchWord 8 0xF4) := ⟨rfl, rfl⟩

/-! ### Single steps -/

/-- All registers 0 but SP: the register values after reset. -/
def regs0 : Regs := State.reset.regs

/-- A runnable state: the bytes of an instruction at IP, data at an address, registers and flags as given. -/
def machine (ip : Word) (bytes : List Byte) (g : Regs := regs0) (f : Flags := Flags.clear) (a : Nat := 0x200)
    (data : List Byte := []) : State :=
  { State.reset with ip := ip, regs := g, flags := f, mem := placeBytes (placeBytes [] a data) ip.toNat bytes }

/-- The state after one step. -/
def after (s : State) : State :=
  match step s with
  | .next t => t
  | .fault _ | .refused _ => s

/-- ZF, SF and CF. -/
def zsc (s : State) : Bool × Bool × Bool := (s.flags.zf, s.flags.sf, s.flags.cf)

/-- R111. -/
theorem test_movRR :
    let t := after (machine 0x0100#16 [0x10#8, 0x07#8] ({ regs0 with ax := 0x1234#16, bx := 0xABCD#16 }))
    (t.reg .ax, t.ip.toNat, t.fault) = (0x12AB, 0x102, none) := by decide

/-- R111, 95_test_vectors.md 2.2. -/
theorem test_movRR_widens :
    let t := after (machine 0x0100#16 [0x10#8, 0x83#8] ({ regs0 with bx := 0xABCD#16 }))
    (t.reg .ax, t.fault) = (0xCD, none) := by decide

/-- R112. -/
theorem test_movRI :
    let t := after (machine 0x0100#16 [0x11#8, 0x00#8, 0x34#8, 0x12#8] ({ regs0 with ax := 0x1234#16 }))
    (t.reg .ax, t.reg .ah, t.ip.toNat, t.fault) = (0x1234, 0x12, 0x104, none) := by decide

/-- R113. -/
theorem test_movRM :
    let t := after (machine 0x0100#16 [0x8B#8, 0x08#8, 0x00#8, 0x02#8] regs0 Flags.clear 0x200 [0xEF#8, 0xBE#8])
    (t.reg .ax, t.ip.toNat, t.fault) = (0xBEEF, 0x104, none) := by decide

/-- R113: a 16-bit read at 0xFFFF. -/
theorem test_movRM_top :
    let t := after (machine 0x0100#16 [0x8B#8, 0x08#8, 0xFF#8, 0xFF#8] ({ regs0 with ax := 0x1234#16 }))
    (t.reg .ax, t.ip.toNat, t.fault) = (0x1234, 0x100, some .memoryOutOfBounds) := by decide

/-- R114. -/
theorem test_movRX :
    let t := after (machine 0x0100#16 [0x8A#8, 0x00#8, 0x0E#8, 0x0A#8, 0x01#8] ({ regs0 with si := 2#16, ax := 0x7700#16 }) Flags.clear 0x10A [0x11#8, 0x22#8, 0x33#8, 0x44#8])
    (t.reg .ax, t.ip.toNat, t.fault) = (0x7733, 0x105, none) := by decide

/-- R115. -/
theorem test_movMR :
    let t := after (machine 0x0100#16 [0x89#8, 0x08#8, 0x00#8, 0x02#8] ({ regs0 with ax := 0xBEEF#16 }))
    (t.mem.read 0x200, t.mem.read 0x201, t.ip.toNat, t.fault) = (0xEF#8, 0xBE#8, 0x104, none) := by decide

/-- R115: a 16-bit write at 0xFFFF. -/
theorem test_movMR_top :
    let t := after (machine 0x0100#16 [0x89#8, 0x08#8, 0xFF#8, 0xFF#8] ({ regs0 with ax := 0xBEEF#16 }))
    (t.mem.read 0xFFFF, t.ip.toNat, t.fault) = (0x00#8, 0x100, some .memoryOutOfBounds) := by decide

/-- R116. -/
theorem test_movXR :
    let t := after (machine 0x0100#16 [0x88#8, 0x01#8, 0x0B#8, 0x00#8, 0x03#8] ({ regs0 with bx := 4#16, cx := 0x007E#16 }))
    (t.mem.read 0x304, t.mem.read 0x305, t.ip.toNat, t.fault) = (0x7E#8, 0x00#8, 0x105, none) := by decide

/-- R117. -/
theorem test_movMI :
    let t := after (machine 0x0100#16 [0xC6#8, 0x00#8, 0x03#8, 0x7F#8])
    (t.mem.read 0x300, t.ip.toNat, t.fault) = (0x7F#8, 0x104, none) := by decide

/-- R118. -/
theorem test_movXI :
    let t := after (machine 0x0100#16 [0xC7#8, 0x0E#8, 0x01#8, 0x00#8, 0x05#8] ({ regs0 with si := 0xFFFF#16 }))
    (t.ip.toNat, t.fault) = (0x100, some .memoryOutOfBounds) := by decide

/-- R118. -/
theorem test_movXI_runs :
    let t := after (machine 0x0100#16 [0xC7#8, 0x0E#8, 0x01#8, 0x00#8, 0x05#8] ({ regs0 with si := 0x02FF#16 }))
    (t.mem.read 0x300, t.ip.toNat, t.fault) = (0x05#8, 0x105, none) := by decide

/-- R119. -/
theorem test_nop :
    let t := after (machine 0x0100#16 [0x90#8])
    (t.ip.toNat, t.fault) = (0x101, none) := by decide

/-- R119: the next IP is 0x10000. -/
theorem test_nop_top :
    let t := after (machine 0xFFFF#16 [0x90#8])
    (t.ip.toNat, t.fault) = (0xFFFF, some .ipOutOfBounds) := by decide

/-- R132. -/
theorem test_addRR :
    let t := after (machine 0x0100#16 [0x20#8, 0x03#8] ({ regs0 with ax := 0x00FF#16, bx := 0x0001#16 }))
    (t.reg .ax, zsc t, t.ip.toNat, t.fault) = (0x0, (true, false, true), 0x102, none) := by decide

/-- R132: source and destination the same. -/
theorem test_addRR_same :
    let t := after (machine 0x0100#16 [0x20#8, 0x00#8] ({ regs0 with ax := 0x1280#16 }))
    (t.reg .ax, zsc t, t.fault) = (0x1200, (true, false, true), none) := by decide

/-- R133. -/
theorem test_addRI :
    let t := after (machine 0x0100#16 [0x21#8, 0x08#8, 0x01#8, 0x00#8] ({ regs0 with ax := 0x7FFF#16 }))
    (t.reg .ax, zsc t, t.ip.toNat, t.fault) = (0x8000, (false, true, false), 0x104, none) := by decide

/-- R134. -/
theorem test_addRM :
    let t := after (machine 0x0100#16 [0x24#8, 0x08#8, 0x00#8, 0x02#8] ({ regs0 with ax := 1#16 }) Flags.clear 0x200 [0xFF#8, 0xFF#8])
    (t.reg .ax, zsc t, t.ip.toNat, t.fault) = (0x0, (true, false, true), 0x104, none) := by decide

/-- R135. -/
theorem test_addRX :
    let t := after (machine 0x0100#16 [0x25#8, 0x00#8, 0x0E#8, 0x00#8, 0x03#8] ({ regs0 with ax := 0x0010#16, si := 1#16 }) Flags.clear 0x301 [0x20#8])
    (t.reg .ax, zsc t, t.ip.toNat, t.fault) = (0x30, (false, false, false), 0x105, none) := by decide

/-- R136. -/
theorem test_subRR :
    let t := after (machine 0x0100#16 [0x30#8, 0x8B#8] ({ regs0 with ax := 5#16, bx := 5#16 }))
    (t.reg .ax, zsc t, t.ip.toNat, t.fault) = (0x0, (true, false, false), 0x102, none) := by decide

/-- R137. -/
theorem test_subRI :
    let t := after (machine 0x0100#16 [0x31#8, 0x00#8, 0x01#8, 0x00#8])
    (t.reg .ax, zsc t, t.ip.toNat, t.fault) = (0xFF, (false, true, true), 0x104, none) := by decide

/-- R138. -/
theorem test_subRM :
    let t := after (machine 0x0100#16 [0x34#8, 0x09#8, 0x00#8, 0x02#8] ({ regs0 with cx := 0x1000#16 }) Flags.clear 0x200 [0x01#8, 0x00#8])
    (t.reg .cx, zsc t, t.ip.toNat, t.fault) = (0xFFF, (false, false, false), 0x104, none) := by decide

/-- R139. -/
theorem test_subRX :
    let t := after (machine 0x0100#16 [0x35#8, 0x02#8, 0x0B#8, 0x00#8, 0x03#8] ({ regs0 with dx := 0x0080#16, bx := 2#16 }) Flags.clear 0x302 [0x01#8])
    (t.reg .dx, zsc t, t.ip.toNat, t.fault) = (0x7F, (false, false, false), 0x105, none) := by decide

/-- R140. -/
theorem test_cmpRR :
    let t := after (machine 0x0100#16 [0x38#8, 0x8B#8] ({ regs0 with ax := 10#16, bx := 20#16 }))
    (t.reg .ax, t.reg .bx, zsc t, t.ip.toNat, t.fault) = (0xA, 0x14, (false, true, true), 0x102, none) := by decide

/-- R141. -/
theorem test_cmpRI :
    let t := after (machine 0x0100#16 [0x39#8, 0x00#8, 0x01#8, 0x00#8] ({ regs0 with ax := 0x0080#16 }))
    (t.reg .ax, zsc t, t.ip.toNat, t.fault) = (0x80, (false, false, false), 0x104, none) := by decide

/-- R142. -/
theorem test_cmpRM :
    let t := after (machine 0x0100#16 [0x3A#8, 0x08#8, 0x00#8, 0x02#8] ({ regs0 with ax := 0x1234#16 }) Flags.clear 0x200 [0x34#8, 0x12#8])
    (t.reg .ax, zsc t, t.ip.toNat, t.fault) = (0x1234, (true, false, false), 0x104, none) := by decide

/-- R143. -/
theorem test_cmpRX :
    let t := after (machine 0x0100#16 [0x3B#8, 0x03#8, 0x0E#8, 0x00#8, 0x03#8] ({ regs0 with bx := 5#16 }) Flags.clear 0x300 [0x06#8])
    (t.reg .bx, zsc t, t.ip.toNat, t.fault) = (0x5, (false, true, true), 0x105, none) := by decide

/-- R144. -/
theorem test_andRR :
    let t := after (machine 0x0100#16 [0x22#8, 0x8B#8] ({ regs0 with ax := 0x1234#16, bx := 0x00FF#16 }))
    (t.reg .ax, zsc t, t.ip.toNat, t.fault) = (0x34, (false, false, false), 0x102, none) := by decide

/-- R145. -/
theorem test_andRI :
    let t := after (machine 0x0100#16 [0x23#8, 0x00#8, 0x0F#8, 0x00#8] ({ regs0 with ax := 0x00F0#16 }) ({ Flags.clear with cf := true }))
    (t.reg .ax, zsc t, t.ip.toNat, t.fault) = (0x0, (true, false, false), 0x104, none) := by decide

/-- R146. -/
theorem test_andRM :
    let t := after (machine 0x0100#16 [0x26#8, 0x04#8, 0x00#8, 0x02#8] ({ regs0 with ax := 0xFF55#16 }) Flags.clear 0x200 [0x80#8])
    (t.reg .ax, zsc t, t.ip.toNat, t.fault) = (0x8055, (false, true, false), 0x104, none) := by decide

/-- R147. -/
theorem test_andRX :
    let t := after (machine 0x0100#16 [0x27#8, 0x09#8, 0x0F#8, 0x00#8, 0x03#8] ({ regs0 with cx := 0xFFFF#16 }) Flags.clear 0x300 [0x00#8, 0x80#8])
    (t.reg .cx, zsc t, t.ip.toNat, t.fault) = (0x8000, (false, true, false), 0x105, none) := by decide

/-- R148. -/
theorem test_orRR :
    let t := after (machine 0x0100#16 [0x0A#8, 0x03#8] ({ regs0 with ax := 0x000F#16, bx := 0x00F0#16 }))
    (t.reg .ax, zsc t, t.ip.toNat, t.fault) = (0xFF, (false, true, false), 0x102, none) := by decide

/-- R149. -/
theorem test_orRI :
    let t := after (machine 0x0100#16 [0x0B#8, 0x08#8, 0x00#8, 0x00#8] regs0 ({ Flags.clear with cf := true }))
    (t.reg .ax, zsc t, t.ip.toNat, t.fault) = (0x0, (true, false, false), 0x104, none) := by decide

/-- R150. -/
theorem test_orRM :
    let t := after (machine 0x0100#16 [0x0C#8, 0x0A#8, 0x00#8, 0x02#8] ({ regs0 with dx := 0x0100#16 }) Flags.clear 0x200 [0x01#8, 0x00#8])
    (t.reg .dx, zsc t, t.ip.toNat, t.fault) = (0x101, (false, false, false), 0x104, none) := by decide

/-- R151. -/
theorem test_orRX :
    let t := after (machine 0x0100#16 [0x0D#8, 0x03#8, 0x0E#8, 0x00#8, 0x03#8] ({ regs0 with bx := 0x0001#16, si := 3#16 }) Flags.clear 0x303 [0x80#8])
    (t.reg .bx, zsc t, t.ip.toNat, t.fault) = (0x81, (false, true, false), 0x105, none) := by decide

/-- R152. -/
theorem test_xorRR :
    let t := after (machine 0x0100#16 [0x32#8, 0x88#8] ({ regs0 with ax := 0x1234#16 }))
    (t.reg .ax, zsc t, t.ip.toNat, t.fault) = (0x0, (true, false, false), 0x102, none) := by decide

/-- R153. -/
theorem test_xorRI :
    let t := after (machine 0x0100#16 [0x33#8, 0x00#8, 0xFF#8, 0x00#8] ({ regs0 with ax := 0x00FF#16 }))
    (t.reg .ax, zsc t, t.ip.toNat, t.fault) = (0x0, (true, false, false), 0x104, none) := by decide

/-- R154. -/
theorem test_xorRM :
    let t := after (machine 0x0100#16 [0x36#8, 0x0B#8, 0x00#8, 0x02#8] ({ regs0 with bx := 0xAAAA#16 }) Flags.clear 0x200 [0x55#8, 0x55#8])
    (t.reg .bx, zsc t, t.ip.toNat, t.fault) = (0xFFFF, (false, true, false), 0x104, none) := by decide

/-- R155. -/
theorem test_xorRX :
    let t := after (machine 0x0100#16 [0x37#8, 0x05#8, 0x0B#8, 0x00#8, 0x03#8] ({ regs0 with cx := 0x0F00#16, bx := 1#16 }) Flags.clear 0x301 [0x0F#8])
    (t.reg .cx, zsc t, t.ip.toNat, t.fault) = (0x0, (true, false, false), 0x105, none) := by decide

/-- R157. -/
theorem test_incR :
    let t := after (machine 0x0100#16 [0x40#8, 0x08#8] ({ regs0 with ax := 0xFFFF#16 }))
    (t.reg .ax, zsc t, t.ip.toNat, t.fault) = (0x0, (true, false, true), 0x102, none) := by decide

/-- R158. -/
theorem test_decR :
    let t := after (machine 0x0100#16 [0x41#8, 0x01#8] ({ regs0 with cx := 0x1200#16 }))
    (t.reg .cx, zsc t, t.ip.toNat, t.fault) = (0x12FF, (false, true, true), 0x102, none) := by decide

/-- R159. -/
theorem test_notR :
    let t := after (machine 0x0100#16 [0xF8#8, 0x08#8] ({ regs0 with ax := 0x00FF#16 }) ({ Flags.clear with zf := true, cf := true }))
    (t.reg .ax, zsc t, t.ip.toNat, t.fault) = (0xFF00, (true, false, true), 0x102, none) := by decide

/-- R160. -/
theorem test_incM :
    let t := after (machine 0x0100#16 [0xA4#8, 0x00#8, 0x02#8] regs0 Flags.clear 0x200 [0xFF#8, 0x12#8])
    (t.mem.read 0x200, t.mem.read 0x201, zsc t, t.ip.toNat, t.fault) = (0x00#8, 0x12#8, (true, false, true), 0x103, none) := by decide

/-- R161. -/
theorem test_incX :
    let t := after (machine 0x0100#16 [0xA5#8, 0x0E#8, 0x00#8, 0x03#8] ({ regs0 with si := 1#16 }) Flags.clear 0x301 [0x7F#8])
    (t.mem.read 0x301, zsc t, t.ip.toNat, t.fault) = (0x80#8, (false, true, false), 0x104, none) := by decide

/-- R162. -/
theorem test_decM :
    let t := after (machine 0x0100#16 [0xA6#8, 0x00#8, 0x02#8] regs0 Flags.clear 0x200 [0x01#8])
    (t.mem.read 0x200, zsc t, t.ip.toNat, t.fault) = (0x00#8, (true, false, false), 0x103, none) := by decide

/-- R163. -/
theorem test_decX :
    let t := after (machine 0x0100#16 [0xA7#8, 0x0B#8, 0x00#8, 0x03#8] ({ regs0 with bx := 2#16 }))
    (t.mem.read 0x302, zsc t, t.ip.toNat, t.fault) = (0xFF#8, (false, true, true), 0x104, none) := by decide

/-- R164. -/
theorem test_notM :
    let t := after (machine 0x0100#16 [0xA8#8, 0x00#8, 0x02#8] regs0 ({ Flags.clear with sf := true }) 0x200 [0x0F#8])
    (t.mem.read 0x200, zsc t, t.ip.toNat, t.fault) = (0xF0#8, (false, true, false), 0x103, none) := by decide

/-- R165. -/
theorem test_notX :
    let t := after (machine 0x0100#16 [0xA9#8, 0x0F#8, 0x00#8, 0x03#8])
    (t.mem.read 0x300, zsc t, t.ip.toNat, t.fault) = (0xFF#8, (false, false, false), 0x104, none) := by decide

/-- R181. -/
theorem test_mulR :
    let t := after (machine 0x0100#16 [0xF6#8, 0x0B#8] ({ regs0 with ax := 0x1000#16, bx := 0x0010#16 }))
    (t.reg .ax, t.reg .dx, zsc t, t.ip.toNat, t.fault) = (0x0, 0x1, (true, false, true), 0x102, none) := by decide

/-- R181: MUL DX reads the old DX. -/
theorem test_mulR_dx :
    let t := after (machine 0x0100#16 [0xF6#8, 0x0A#8] ({ regs0 with ax := 2#16, dx := 3#16 }))
    (t.reg .ax, t.reg .dx, zsc t, t.fault) = (0x6, 0x0, (false, false, false), none) := by decide

/-- R183. -/
theorem test_mulM :
    let t := after (machine 0x0100#16 [0xAA#8, 0x00#8, 0x02#8] ({ regs0 with ax := 0x0003#16, dx := 7#16 }) Flags.clear 0x200 [0x05#8])
    (t.reg .ax, t.reg .dx, zsc t, t.ip.toNat, t.fault) = (0xF, 0x7, (false, false, false), 0x103, none) := by decide

/-- R184. -/
theorem test_mulX :
    let t := after (machine 0x0100#16 [0xAB#8, 0x0E#8, 0x00#8, 0x03#8] ({ regs0 with ax := 0x00FF#16 }) Flags.clear 0x300 [0xFF#8])
    (t.reg .ax, zsc t, t.ip.toNat, t.fault) = (0xFE01, (false, false, true), 0x104, none) := by decide

/-- R182. -/
theorem test_divR :
    let t := after (machine 0x0100#16 [0xF7#8, 0x03#8] ({ regs0 with ax := 100#16, bx := 7#16 }))
    (t.reg .ax, t.ip.toNat, t.fault) = (0x20E, 0x102, none) := by decide

/-- R182, scenario 6. -/
theorem test_divR_zero :
    let t := after (machine 0x0108#16 [0xF7#8, 0x03#8] ({ regs0 with ax := 10#16 }))
    (t.reg .ax, zsc t, t.ip.toNat, t.fault) = (0xA, (false, false, false), 0x10A, some .divideByZero) := by decide

/-- R185. -/
theorem test_divM :
    let t := after (machine 0x0100#16 [0xAC#8, 0x00#8, 0x02#8] ({ regs0 with ax := 7#16 }))
    (t.reg .ax, t.ip.toNat, t.fault) = (0x7, 0x103, some .divideByZero) := by decide

/-- R185, R182: AX = 0x0100 by 1. -/
theorem test_divM_overflow :
    let t := after (machine 0x0100#16 [0xAC#8, 0x00#8, 0x02#8] ({ regs0 with ax := 0x0100#16 }) Flags.clear 0x200 [0x01#8])
    (t.reg .ax, t.ip.toNat, t.fault) = (0x100, 0x103, some .divideOverflow) := by decide

/-- R186. -/
theorem test_divX :
    let t := after (machine 0x0100#16 [0xAD#8, 0x0B#8, 0x00#8, 0x03#8] ({ regs0 with ax := 0x00FF#16, bx := 1#16 }) Flags.clear 0x301 [0x10#8])
    (t.reg .ax, t.ip.toNat, t.fault) = (0xF0F, 0x104, none) := by decide

/-- R202. -/
theorem test_jmp :
    let t := after (machine 0x0100#16 [0xE9#8, 0xFD#8, 0x00#8])
    (t.ip.toNat, t.fault) = (0x200, none) := by decide

/-- R202: at 0xFFF0 by 0x0100. -/
theorem test_jmp_beyond :
    let t := after (machine 0xFFF0#16 [0xE9#8, 0x00#8, 0x01#8])
    (t.ip.toNat, t.fault) = (0xFFF0, some .ipOutOfBounds) := by decide

/-- R204. -/
theorem test_je :
    let t := after (machine 0x0100#16 [0x74#8, 0x05#8] regs0 ({ Flags.clear with zf := true }))
    (t.ip.toNat, t.fault) = (0x107, none) := by decide

/-- R204. -/
theorem test_je_not_taken :
    let t := after (machine 0x0100#16 [0x74#8, 0x05#8])
    (t.ip.toNat, t.fault) = (0x102, none) := by decide

/-- R205. -/
theorem test_jne :
    let t := after (machine 0x0100#16 [0x75#8, 0xFE#8])
    (t.ip.toNat, t.fault) = (0x100, none) := by decide

/-- R206. -/
theorem test_jl :
    let t := after (machine 0x010A#16 [0x7C#8, 0x01#8] regs0 ({ Flags.clear with sf := true, cf := true }))
    (t.ip.toNat, t.fault) = (0x10D, none) := by decide

/-- R206, R203: OF is read from the state. -/
theorem test_jl_overflow :
    let t := after (machine 0x010A#16 [0x7C#8, 0x01#8] regs0 ({ Flags.clear with sf := true, ovf := true }))
    (t.ip.toNat, t.fault) = (0x10C, none) := by decide

/-- R207. -/
theorem test_jle :
    let t := after (machine 0x0100#16 [0x7E#8, 0x10#8])
    (t.ip.toNat, t.fault) = (0x102, none) := by decide

/-- R208. -/
theorem test_jg :
    let t := after (machine 0x0100#16 [0x7F#8, 0x10#8])
    (t.ip.toNat, t.fault) = (0x112, none) := by decide

/-- R209. -/
theorem test_jge :
    let t := after (machine 0x0120#16 [0x7D#8, 0xF0#8])
    (t.ip.toNat, t.fault) = (0x112, none) := by decide

/-- R210. -/
theorem test_jb :
    let t := after (machine 0x0100#16 [0x72#8, 0x02#8] regs0 ({ Flags.clear with cf := true }))
    (t.ip.toNat, t.fault) = (0x104, none) := by decide

/-- R211. -/
theorem test_jae :
    let t := after (machine 0x0100#16 [0x73#8, 0x02#8])
    (t.ip.toNat, t.fault) = (0x104, none) := by decide

/-- R212. -/
theorem test_jbe :
    let t := after (machine 0x0100#16 [0x76#8, 0x04#8] regs0 ({ Flags.clear with zf := true }))
    (t.ip.toNat, t.fault) = (0x106, none) := by decide

/-- R213. -/
theorem test_ja :
    let t := after (machine 0x0100#16 [0x77#8, 0x04#8])
    (t.ip.toNat, t.fault) = (0x106, none) := by decide

/-- R214. -/
theorem test_loop :
    let t := after (machine 0x010A#16 [0xE2#8, 0xFC#8] ({ regs0 with cx := 3#16 }))
    (t.reg .cx, t.ip.toNat, t.fault) = (0x2, 0x108, none) := by decide

/-- R214: CX = 0. -/
theorem test_loop_zero :
    let t := after (machine 0x010A#16 [0xE2#8, 0xFC#8])
    (t.reg .cx, t.ip.toNat, t.fault) = (0xFFFF, 0x108, none) := by decide

/-- R220. -/
theorem test_hlt :
    let t := after (machine 0x010A#16 [0xF4#8])
    (t.halted, t.ip.toNat, t.fault) = (true, 0x10B, none) := by decide

/-- R221. -/
theorem test_ret :
    let t := after (machine 0x0100#16 [0xC3#8])
    (t.reg .sp, t.ip.toNat, t.fault) = (0xFFFE, 0x101, none) := by decide

/-- R223. -/
theorem test_int_character :
    let t := after (machine 0x0100#16 [0xCD#8, 0x21#8] ({ regs0 with ax := 0x0200#16, dx := 0x0048#16 }))
    (t.output, t.ip.toNat, t.fault) = (some [0x48#8], 0x102, none) := by decide

/-- R224. -/
theorem test_int_string :
    let t := after (machine 0x0100#16 [0xCD#8, 0x21#8] ({ regs0 with ax := 0x0900#16, dx := 0x010B#16 }) Flags.clear 0x10B [0x48#8, 0x69#8, 0x24#8])
    (t.output, t.ip.toNat, t.fault) = (some [0x48#8, 0x69#8], 0x102, none) := by decide

/-- R181 under `Product`: the flags of the whole product. -/
theorem test_mulR_product :
    zsc (after { machine 0x0100#16 [0xF6#8, 0x0B#8] { regs0 with ax := 0x1000#16, bx := 0x0010#16 } with
      config := { Config.standard with mulFlagWidth := .product } }) = (false, false, false) := by decide

/-- R31, 95_test_vectors.md 2.1: 0x100, -1 and 0xFE01 at width 8; 0x10000, -0x8000 and 0x7FFF at width 16. -/
theorem test_setFlags :
    zsc (State.reset.setFlags 0x100 8) = (true, false, true) ∧ zsc (State.reset.setFlags (-1) 8) = (false, true, true) ∧
    zsc (State.reset.setFlags 0xFE01 8) = (false, false, true) ∧
    zsc (State.reset.setFlags 0x10000 16) = (true, false, true) ∧
    zsc (State.reset.setFlags (-0x8000) 16) = (false, true, true) ∧
    zsc (State.reset.setFlags 0x7FFF 16) = (false, false, false) := by decide

/-! ### Witnesses: for every statement with hypotheses, states and operands that meet them, at the ends of their ranges -/

/-- A runnable state at an IP, with memory all zero and registers as given. -/
def at_ (ip : Word) (g : Regs := regs0) : State := { State.reset with ip := ip, regs := g }

/-- The hypotheses of the four forms of a two-operand instruction (`registerForms`), each at the top of its range. -/
def RegisterFormsMet : Prop :=
  (at_ 0xFFFD#16).ip.toNat + 2 ≤ 0xFFFF ∧ (at_ 0xFFFB#16).ip.toNat + 4 ≤ 0xFFFF ∧
  ((at_ 0xFFFB#16).ip.toNat + 4 ≤ 0xFFFF ∧ (0xFFFE#16).toNat + RegId.ax.width.bytes ≤ 0x10000 ∧
    (0xFFFF#16).toNat + RegId.al.width.bytes ≤ 0x10000) ∧
  ((at_ 0xFFFA#16 { regs0 with si := 0xFFFE#16 }).ip.toNat + 5 ≤ 0xFFFF ∧
    (0#16).toNat + (at_ 0xFFFA#16 { regs0 with si := 0xFFFE#16 }).reg .si + RegId.ax.width.bytes ≤ 0x10000 ∧
    (1#16).toNat + (at_ 0xFFFA#16 { regs0 with si := 0xFFFE#16 }).reg .si + RegId.al.width.bytes ≤ 0x10000)

theorem witness_MovToRegisterResult : RegisterFormsMet := by unfold RegisterFormsMet; decide
theorem witness_AddResult : RegisterFormsMet := witness_MovToRegisterResult
theorem witness_SubResult : RegisterFormsMet := witness_MovToRegisterResult
theorem witness_CmpResult : RegisterFormsMet := witness_MovToRegisterResult
theorem witness_AndResult : RegisterFormsMet := witness_MovToRegisterResult
theorem witness_OrResult : RegisterFormsMet := witness_MovToRegisterResult
theorem witness_XorResult : RegisterFormsMet := witness_MovToRegisterResult

theorem witness_MovToMemoryResult :
    ((at_ 0xFFFB#16).ip.toNat + 4 ≤ 0xFFFF ∧ (0xFFFE#16).toNat + RegId.ax.width.bytes ≤ 0x10000) ∧
    ((at_ 0xFFFA#16 { regs0 with si := 0xFFFE#16 }).ip.toNat + 5 ≤ 0xFFFF ∧
      (0#16).toNat + (at_ 0xFFFA#16 { regs0 with si := 0xFFFE#16 }).reg .si + RegId.ax.width.bytes ≤ 0x10000) ∧
    (at_ 0xFFFB#16).ip.toNat + 4 ≤ 0xFFFF ∧
    ((at_ 0xFFFA#16 { regs0 with si := 0xFFFE#16 }).ip.toNat + 5 ≤ 0xFFFF ∧
      (1#16).toNat + (at_ 0xFFFA#16 { regs0 with si := 0xFFFE#16 }).reg .si ≤ 0xFFFF) := by decide

/-- The hypotheses of the two forms of an instruction on one byte of memory (`byteForms`). -/
def ByteFormsMet : Prop :=
  (at_ 0xFFFC#16).ip.toNat + 3 ≤ 0xFFFF ∧
  ((at_ 0xFFFB#16 { regs0 with bx := 0xFFFE#16 }).ip.toNat + 4 ≤ 0xFFFF ∧
    (1#16).toNat + (at_ 0xFFFB#16 { regs0 with bx := 0xFFFE#16 }).reg .bx ≤ 0xFFFF)

theorem witness_IncMemoryResult : ByteFormsMet := by unfold ByteFormsMet; decide
theorem witness_DecMemoryResult : ByteFormsMet := witness_IncMemoryResult
theorem witness_NotMemoryResult : ByteFormsMet := witness_IncMemoryResult
theorem witness_MulMemoryResult : ByteFormsMet := witness_IncMemoryResult

theorem witness_IncDecRegisterResult : (at_ 0xFFFD#16).ip.toNat + 2 ≤ 0xFFFF := by decide
theorem witness_NotRegisterResult : (at_ 0xFFFD#16).ip.toNat + 2 ≤ 0xFFFF := by decide
theorem witness_MulRegisterResult :
    (at_ 0xFFFD#16).ip.toNat + 2 ≤ 0xFFFF ∧ RegId.bl.width = .byte ∧ RegId.bx.width = .word := by decide

/-- AX = 0x06FF by BL = 7 is 0xFF; DX:AX = 0x0006FFFF by BX = 7 is 0xFFFF. -/
theorem witness_DivRegisterResult :
    ((at_ 0xFFFD#16 { regs0 with ax := 0x06FF#16, bx := 7#16 }).ip.toNat + 2 ≤ 0xFFFF ∧
      (at_ 0xFFFD#16 { regs0 with ax := 0x06FF#16, bx := 7#16 }).reg .bl ≠ 0 ∧ RegId.bl.width = .byte ∧
      (at_ 0xFFFD#16 { regs0 with ax := 0x06FF#16, bx := 7#16 }).reg .ax /
        (at_ 0xFFFD#16 { regs0 with ax := 0x06FF#16, bx := 7#16 }).reg .bl = 0xFF) ∧
    (RegId.bx.width = .word ∧ (at_ 0xFFFD#16 { regs0 with ax := 0xFFFF#16, dx := 6#16, bx := 7#16 }).reg .bx ≠ 0 ∧
      ((at_ 0xFFFD#16 { regs0 with ax := 0xFFFF#16, dx := 6#16, bx := 7#16 }).reg .dx * 65536 +
        (at_ 0xFFFD#16 { regs0 with ax := 0xFFFF#16, dx := 6#16, bx := 7#16 }).reg .ax) /
        (at_ 0xFFFD#16 { regs0 with ax := 0xFFFF#16, dx := 6#16, bx := 7#16 }).reg .bx = 0xFFFF) := by decide

/-- A state whose memory byte at 0xFFFF is 7, with AX as given, IP as given and BX = 0xFFFE. -/
def seven (ip ax : Word) : State :=
  { State.reset with ip := ip, regs := { regs0 with ax := ax, bx := 0xFFFE#16 }, mem := [(0xFFFF, 7#8)] }

theorem witness_DivMemoryResult :
    ((seven 0xFFFC#16 0x06FF#16).ip.toNat + 3 ≤ 0xFFFF ∧
      ((seven 0xFFFC#16 0x06FF#16).mem.read (0xFFFF#16).toNat).toNat ≠ 0 ∧
      (seven 0xFFFC#16 0x06FF#16).reg .ax / ((seven 0xFFFC#16 0x06FF#16).mem.read (0xFFFF#16).toNat).toNat = 0xFF) ∧
    ((seven 0xFFFB#16 0x06FF#16).ip.toNat + 4 ≤ 0xFFFF ∧
      (1#16).toNat + (seven 0xFFFB#16 0x06FF#16).reg .bx ≤ 0xFFFF ∧
      ((seven 0xFFFB#16 0x06FF#16).mem.read ((1#16).toNat + (seven 0xFFFB#16 0x06FF#16).reg .bx)).toNat ≠ 0 ∧
      (seven 0xFFFB#16 0x06FF#16).reg .ax /
        ((seven 0xFFFB#16 0x06FF#16).mem.read ((1#16).toNat + (seven 0xFFFB#16 0x06FF#16).reg .bx)).toNat = 0xFF) := by
  decide

/-- One state and operands for each of the seven clauses; the quotients are the smallest that overflow. -/
theorem witness_DivideFaultsAreTaken :
    (at_ 0xFFFE#16).reg .bl = 0 ∧
    (RegId.bl.width = .byte ∧ (at_ 0#16 { regs0 with ax := 0x700#16, bx := 7#16 }).reg .bl ≠ 0 ∧
      0xFF < (at_ 0#16 { regs0 with ax := 0x700#16, bx := 7#16 }).reg .ax /
        (at_ 0#16 { regs0 with ax := 0x700#16, bx := 7#16 }).reg .bl) ∧
    (RegId.bx.width = .word ∧ (at_ 0#16 { regs0 with dx := 7#16, bx := 7#16 }).reg .bx ≠ 0 ∧
      0xFFFF < ((at_ 0#16 { regs0 with dx := 7#16, bx := 7#16 }).reg .dx * 65536 +
        (at_ 0#16 { regs0 with dx := 7#16, bx := 7#16 }).reg .ax) /
        (at_ 0#16 { regs0 with dx := 7#16, bx := 7#16 }).reg .bx) ∧
    ((at_ 0#16).mem.read (0xFFFF#16).toNat).toNat = 0 ∧
    (((seven 0#16 0x0700#16).mem.read (0xFFFF#16).toNat).toNat ≠ 0 ∧
      0xFF < (seven 0#16 0x0700#16).reg .ax / ((seven 0#16 0x0700#16).mem.read (0xFFFF#16).toNat).toNat) ∧
    ((0xFFFF#16).toNat + (at_ 0#16).reg .si ≤ 0xFFFF ∧
      ((at_ 0#16).mem.read ((0xFFFF#16).toNat + (at_ 0#16).reg .si)).toNat = 0) ∧
    ((1#16).toNat + (seven 0#16 0x0700#16).reg .bx ≤ 0xFFFF ∧
      ((seven 0#16 0x0700#16).mem.read ((1#16).toNat + (seven 0#16 0x0700#16).reg .bx)).toNat ≠ 0 ∧
      0xFF < (seven 0#16 0x0700#16).reg .ax /
        ((seven 0#16 0x0700#16).mem.read ((1#16).toNat + (seven 0#16 0x0700#16).reg .bx)).toNat) := by decide

/-- Targets 0 and 0xFFFF, the targets just outside, and a fetch that ends beyond 0xFFFF. -/
theorem witness_JmpResult :
    (((at_ 0#16).ip.toNat : Int) + 3 + (0xFFFD#16).toInt = 0 ∧ ((at_ 0xFFFC#16).ip.toNat : Int) + 3 + (0#16).toInt = 0xFFFF) ∧
    (((at_ 0#16).ip.toNat : Int) + 3 + (0xFFFC#16).toInt < 0 ∧ 0xFFFF < ((at_ 0xFFFD#16).ip.toNat : Int) + 3 + (0#16).toInt) ∧
    ((machine 0xFFFE#16 [0xE9#8]).halted = false ∧ (machine 0xFFFE#16 [0xE9#8]).fault = none ∧
      (machine 0xFFFE#16 [0xE9#8]).mem.read 0xFFFE = 0xE9#8 ∧ 0xFFFF < (machine 0xFFFE#16 [0xE9#8]).ip.toNat + 2) := by
  decide

/-- A row of the table (JAE, taken); taken to 0 and to 0xFFFF, taken just outside, not taken at 0xFFFE, and a fetch that
ends beyond 0xFFFF. -/
theorem witness_ConditionalJumpResult :
    (0x73#8, Instr.jae 0x80#8, true) ∈
      [(0x74#8, Instr.je 0x80#8, (at_ 0x7E#16).flags.zf), (0x75#8, .jne 0x80#8, !(at_ 0x7E#16).flags.zf),
       (0x7C#8, .jl 0x80#8, (at_ 0x7E#16).flags.sf != (at_ 0x7E#16).flags.ovf),
       (0x7E#8, .jle 0x80#8, (at_ 0x7E#16).flags.zf || (at_ 0x7E#16).flags.sf != (at_ 0x7E#16).flags.ovf),
       (0x7F#8, .jg 0x80#8, !(at_ 0x7E#16).flags.zf && (at_ 0x7E#16).flags.sf == (at_ 0x7E#16).flags.ovf),
       (0x7D#8, .jge 0x80#8, (at_ 0x7E#16).flags.sf == (at_ 0x7E#16).flags.ovf),
       (0x72#8, .jb 0x80#8, (at_ 0x7E#16).flags.cf), (0x76#8, .jbe 0x80#8, (at_ 0x7E#16).flags.cf || (at_ 0x7E#16).flags.zf),
       (0x77#8, .ja 0x80#8, !(at_ 0x7E#16).flags.cf && !(at_ 0x7E#16).flags.zf),
       (0x73#8, .jae 0x80#8, !(at_ 0x7E#16).flags.cf)] ∧
    (((at_ 0x7E#16).ip.toNat : Int) + 2 + (0x80#8).toInt = 0 ∧ ((at_ 0xFF7E#16).ip.toNat : Int) + 2 + (0x7F#8).toInt = 0xFFFF) ∧
    (((at_ 0x7D#16).ip.toNat : Int) + 2 + (0x80#8).toInt < 0 ∧ 0xFFFF < ((at_ 0xFFFE#16).ip.toNat : Int) + 2) ∧
    ((machine 0xFFFF#16 [0x74#8]).halted = false ∧ (machine 0xFFFF#16 [0x74#8]).fault = none ∧
      (machine 0xFFFF#16 [0x74#8]).mem.read 0xFFFF = 0x74#8 ∧ 0xFFFF < (machine 0xFFFF#16 [0x74#8]).ip.toNat + 1) := by
  decide

/-- CX = 0 and CX = 1; targets at both ends of memory and just outside. -/
theorem witness_LoopResult :
    (0xFFFF = ((at_ 0x7E#16).reg .cx + 0xFFFF) % 0x10000 ∧ ((at_ 0x7E#16).ip.toNat : Int) + 2 + (0x80#8).toInt = 0) ∧
    (0 = ((at_ 0xFFFD#16 { regs0 with cx := 1#16 }).reg .cx + 0xFFFF) % 0x10000 ∧
      ((at_ 0xFFFD#16).ip.toNat : Int) + 2 = 0xFFFF) ∧
    (((at_ 0x7D#16).ip.toNat : Int) + 2 + (0x80#8).toInt < 0 ∧ 0xFFFF < ((at_ 0xFFFE#16).ip.toNat : Int) + 2) := by decide

theorem witness_HltHalts : (at_ 0xFFFE#16).ip.toNat ≠ 0xFFFF ∧ (at_ 0xFFFF#16).ip.toNat = 0xFFFF := by decide
theorem witness_NopAndRetHaveNoEffect : (at_ 0xFFFE#16).ip.toNat ≠ 0xFFFF ∧ (at_ 0xFFFF#16).ip.toNat = 0xFFFF := by decide

theorem witness_IntEmitsTheCharacter :
    (at_ 0xFFFD#16 { regs0 with ax := 0x0200#16 }).ip.toNat + 2 ≤ 0xFFFF ∧
    (at_ 0xFFFD#16 { regs0 with ax := 0x0200#16 }).reg .ah = 0x02 := by decide

/-- A `$` in the last byte of memory, after one other byte. -/
theorem witness_IntEmitsTheString :
    let s := { at_ 0xFFFD#16 { regs0 with ax := 0x0900#16, dx := 0xFFFE#16 } with mem := [(0xFFFE, 0x48#8), (0xFFFF, 0x24#8)] }
    s.reg .ah = 0x09 ∧ s.ip.toNat + 2 ≤ 0xFFFF ∧ s.reg .dx + 1 ≤ 0xFFFF ∧ (s.mem.read (s.reg .dx + 1)).toNat = 0x24 ∧
      (s.mem.read (s.reg .dx + 0)).toNat ≠ 0x24 := by decide

/-- No `$` in the last byte of memory, where the string begins. -/
theorem witness_IntEmitsTheString_unterminated :
    let s := at_ 0xFFFD#16 { regs0 with ax := 0x0900#16, dx := 0xFFFF#16 }
    s.reg .ah = 0x09 ∧ s.reg .dx = 0xFFFF ∧ (s.mem.read 0xFFFF).toNat ≠ 0x24 := by decide

theorem witness_IntOfAnotherServiceHasNoEffect :
    (at_ 0xFFFD#16).ip.toNat + 2 ≤ 0xFFFF ∧ 0x20#8 ≠ 0x21#8 ∧
    ((at_ 0xFFFD#16 { regs0 with ax := 0x4C00#16 }).reg .ah ≠ 0x02 ∧
      (at_ 0xFFFD#16 { regs0 with ax := 0x4C00#16 }).reg .ah ≠ 0x09) := by decide

theorem witness_LoadCopiesTheWholeImage : (List.replicate 0x10000 (0x90#8)).length = 0x10000 := List.length_replicate
theorem witness_ResetStartsAtTheEntry : (List.replicate 0x10000 (0x90#8)).length = 0x10000 := List.length_replicate

theorem witness_TerminalStatesHaveNoStep :
    ({ State.reset with halted := true }).halted = true ∧ ({ State.reset with fault := some .divideByZero }).halted = false ∧
    ({ State.reset with fault := some .divideByZero }).fault = some .divideByZero := by decide

theorem witness_RunnableStatesHaveAStep : State.reset.runnable := ⟨rfl, rfl⟩

/-- A step that goes on, one that halts, one that faults, and a host that is not running. -/
theorem witness_HostRecordsEachStep :
    (after (machine 0x100#16 [0x90#8])).fault = none ∧ (after (machine 0x100#16 [0x90#8])).halted = false ∧
    (after (machine 0x100#16 [0xF4#8])).fault = none ∧ (after (machine 0x100#16 [0xF4#8])).halted = true ∧
    (after (machine 0x100#16 [0x00#8])).fault = some .unknownOpcode ∧ (newState Config.standard).status ≠ .running := by
  decide

theorem witness_HostRecordsEachStep_step :
    step (machine 0x100#16 [0x90#8]) = .next (after (machine 0x100#16 [0x90#8])) ∧
    step (machine 0x100#16 [0xF4#8]) = .next (after (machine 0x100#16 [0xF4#8])) ∧
    step (machine 0x100#16 [0x00#8]) = .next (after (machine 0x100#16 [0x00#8])) := ⟨rfl, rfl, rfl⟩

theorem witness_EncodeOfDecode : decode [0xC7#8, 0x0E#8, 0x01#8, 0x00#8, 0x05#8] = .ok (.movXI .si 1#16 5#8, []) := rfl

/-- Two byte strings that share their opcode byte. -/
theorem witness_OpcodeFixesTheLength :
    decode (0x8A#8 :: [0x00#8, 0x0E#8, 0x0A#8, 0x01#8]) = .ok (.movRX .al .si 0x010A#16, []) ∧
    decode (0x8A#8 :: [0x0F#8, 0x00#8, 0xFF#8, 0xFF#8, 0x90#8]) = .ok (.movRX .di .al 0xFFFF#16, [0x90#8]) := ⟨rfl, rfl⟩

theorem witness_StepRunsTheDecodedInstruction :
    State.runnable (machine 0xFFFE#16 [0x10#8, 0x8B#8]) ∧
    decode (fetchBytes (machine 0xFFFE#16 [0x10#8, 0x8B#8])) = .ok (.movRR .ax .bx, []) := ⟨⟨rfl, rfl⟩, rfl⟩

/-- A NOP in the last byte of memory. -/
theorem witness_StepRunsTheBytesAtIp :
    State.runnable (machine 0xFFFF#16 [0x90#8]) ∧
    (machine 0xFFFF#16 [0x90#8]).ip.toNat + (encode .nop).length ≤ 0x10000 ∧
    bytesAt (machine 0xFFFF#16 [0x90#8]).mem (machine 0xFFFF#16 [0x90#8]).ip.toNat (encode .nop) := by
  refine ⟨⟨rfl, rfl⟩, by decide, fun k h => ?_⟩
  have hk : k < 1 := h
  obtain rfl : k = 0 := by omega
  rfl

/-- Both policies; under `Nop` the last two addresses. -/
theorem witness_UnassignedOpcodeFollowsThePolicy :
    State.runnable (at_ 0xFFFF#16) ∧ opcodeFormat ((at_ 0xFFFF#16).mem.read 0xFFFF).toNat = none ∧
    (at_ 0xFFFF#16).config.unknownOpcode = .fault ∧
    ({ at_ 0xFFFE#16 with config := { Config.standard with unknownOpcode := .nop } }).config.unknownOpcode = .nop ∧
    (at_ 0xFFFE#16).ip.toNat + 1 ≤ 0xFFFF ∧ (at_ 0xFFFF#16).ip.toNat = 0xFFFF := by
  exact ⟨⟨rfl, rfl⟩, by decide, by decide, by decide, by decide, by decide⟩

/-- `MOV r,[base+idx]` in the last five bytes of memory, with the register byte 16, and with the index byte 16. -/
theorem witness_RegisterByteAboveFifteenFaults :
    State.runnable (machine 0xFFFB#16 [0x8A#8, 0x10#8, 0x10#8]) ∧
    opcodeFormat ((machine 0xFFFB#16 [0x8A#8, 0x10#8, 0x10#8]).mem.read 0xFFFB).toNat = some .RX ∧
    (machine 0xFFFB#16 [0x8A#8, 0x10#8, 0x10#8]).ip.toNat + formatLength .RX ≤ 0x10000 ∧
    1 ∈ regByteOffsets .RX ∧ 2 ∈ regByteOffsets .RX ∧
    15 < ((machine 0xFFFB#16 [0x8A#8, 0x10#8, 0x10#8]).mem.read (0xFFFB + 1)).toNat ∧
    15 < ((machine 0xFFFB#16 [0x8A#8, 0x10#8, 0x10#8]).mem.read (0xFFFB + 2)).toNat := by
  exact ⟨⟨rfl, rfl⟩, by decide⟩

/-- The same instruction one byte further up. -/
theorem witness_OperandFetchPastTheEndFaults :
    State.runnable (machine 0xFFFC#16 [0x8A#8, 0x10#8]) ∧
    opcodeFormat ((machine 0xFFFC#16 [0x8A#8, 0x10#8]).mem.read 0xFFFC).toNat = some .RX ∧
    0x10000 < (machine 0xFFFC#16 [0x8A#8, 0x10#8]).ip.toNat + formatLength .RX := ⟨⟨rfl, rfl⟩, by decide⟩

/-- The last byte, the first address beyond, the last word, the word that ends beyond. -/
theorem witness_MemoryWrite :
    State.reset.mem.wf = true ∧ 0xFFFF ≤ 0xFFFF ∧ 0xFFFF < 0x10000 ∧ 0xFFFE + 1 ≤ 0xFFFF ∧ 0xFFFF < 0xFFFF + 1 := by decide

/-- The last word of memory. -/
theorem witness_MixedWidthViewsAgree :
    State.reset.mem.wf = true ∧ 0xFFFE + 1 ≤ 0xFFFF ∧ (State.reset.memWrite 0xFFFE .word (0xFFFF : Nat)).isSome = true ∧
    ((State.reset.memWrite 0xFFFE .byte (0xFF : Nat)).bind fun t => t.memWrite 0xFFFF .byte (0xFF : Nat)).isSome = true := by
  decide

theorem witness_EveryStepKeepsTheInvariant :
    (machine 0x100#16 [0x90#8]).Inv ∧ step (machine 0x100#16 [0x90#8]) = .next (after (machine 0x100#16 [0x90#8])) :=
  ⟨⟨rfl, rfl, rfl, ⟨rfl, rfl, rfl, rfl, rfl⟩, fun h => by cases h⟩, rfl⟩

theorem witness_OverflowFlagIsNeverWritten :
    step (machine 0x100#16 [0x20#8, 0x88#8]) = .next (after (machine 0x100#16 [0x20#8, 0x88#8])) := rfl

theorem witness_OnlyTheListedInstructionsWriteFlags :
    exec (.notR .ax) (at_ 0#16) = .next { at_ 2#16 with regs := { regs0 with ax := 0xFFFF#16 } } ∧
    writesFlags (.notR .ax) = false := ⟨rfl, rfl⟩

/-- A fault of each kind; the divide fault at the last IP where the address after it is an address. -/
theorem witness_FaultingStepCommitsNothing :
    (State.runnable (at_ 0xFFFF#16) ∧ (after (at_ 0xFFFF#16)).fault = some .unknownOpcode) ∧
    (State.runnable (machine 0xFFFD#16 [0xF7#8, 0x03#8]) ∧
      (after (machine 0xFFFD#16 [0xF7#8, 0x03#8])).fault = some .divideByZero ∧
      0xFFFD + (encode (.divR .bl)).length ≤ 0xFFFF) := ⟨⟨⟨rfl, rfl⟩, by decide⟩, ⟨rfl, rfl⟩, by decide⟩

theorem witness_OnlyHltHalts :
    State.runnable (machine 0x100#16 [0xF4#8]) ∧ (after (machine 0x100#16 [0xF4#8])).halted = true := ⟨⟨rfl, rfl⟩, by decide⟩

theorem witness_OnlyInt21hEmits :
    State.runnable (machine 0x100#16 [0xCD#8, 0x21#8] { regs0 with ax := 0x0200#16 }) ∧
    (after (machine 0x100#16 [0xCD#8, 0x21#8] { regs0 with ax := 0x0200#16 })).output = some [0x00#8] :=
  ⟨⟨rfl, rfl⟩, by decide⟩

theorem witness_IpAdvancesByTheEncodedLength :
    exec .nop (at_ 0xFFFE#16) = .next (at_ 0xFFFF#16) ∧ transfersControl .nop = false ∧ (at_ 0xFFFF#16).fault = none :=
  ⟨rfl, rfl, rfl⟩

theorem witness_FallingOffTheEndFaults :
    transfersControl .hlt = false ∧ 0xFFFF < (at_ 0xFFFF#16).ip.toNat + (encode .hlt).length := by decide

/-- No earlier fault: a store to the last byte of memory, the largest quotient that fits, and a string that ends in the
last byte of memory. -/
theorem witness_FallingOffTheEndFaults_code :
    (transfersControl (.movMI 0xFFFF#16 1#8) = false ∧
      0xFFFF < (at_ 0xFFFC#16).ip.toNat + (encode (.movMI 0xFFFF#16 1#8)).length ∧
      ¬ accessFaults (.movMI 0xFFFF#16 1#8) (at_ 0xFFFC#16) ∧ ¬ divideFaultDue (.movMI 0xFFFF#16 1#8) (at_ 0xFFFC#16)) ∧
    (0xFFFF < (seven 0xFFFD#16 0x06FF#16).ip.toNat + (encode (.divM 0xFFFF#16)).length ∧
      ¬ accessFaults (.divM 0xFFFF#16) (seven 0xFFFD#16 0x06FF#16) ∧
      ¬ divideFaultDue (.divM 0xFFFF#16) (seven 0xFFFD#16 0x06FF#16)) ∧
    let s := { at_ 0xFFFE#16 { regs0 with ax := 0x0900#16, dx := 0xFFFF#16 } with mem := [(0xFFFF, 0x24#8)] }
    0xFFFF < s.ip.toNat + (encode (.int 0x21#8)).length ∧ ¬ accessFaults (.int 0x21#8) s ∧
      ¬ divideFaultDue (.int 0x21#8) s := by
  refine ⟨⟨rfl, by decide, ?_, ?_⟩, ⟨by decide, ?_, ?_⟩, by decide, ?_, ?_⟩
  · rintro (⟨_, _, e, h⟩ | ⟨e, _⟩)
    · cases e; exact absurd h (by decide)
    · cases e
  · rintro ⟨_, _, _, e, _⟩; cases e
  · rintro (⟨_, _, e, h⟩ | ⟨e, _⟩)
    · cases e; exact absurd h (by decide)
    · cases e
  · rintro ⟨_, _, _, e, h⟩; cases e; exact absurd h (by decide)
  · rintro (⟨_, _, e, _⟩ | ⟨_, _, h⟩)
    · cases e
    · exact h 0xFFFF (by decide) (by decide) (by decide)
  · rintro ⟨_, _, _, e, _⟩; cases e

/-- An instruction that stores nothing, and one that stores. -/
theorem witness_MemoryChangesOnlyWhereItIsStored :
    exec .nop (at_ 0#16) = .next (at_ 1#16) ∧ stores .nop = false ∧
    exec (.movMI 0xFFFF#16 1#8) (at_ 0#16) = .next { at_ 4#16 with mem := [(0xFFFF, 1#8)] } ∧
    dataAccess (.movMI 0xFFFF#16 1#8) (at_ 0#16) = some (0xFFFF, .byte) := ⟨rfl, rfl, rfl, rfl⟩

/-- A word at 0xFFFF, and a byte at 0x10000. -/
theorem witness_AccessBeyondMemoryFaults :
    (dataAccess (.movRM .ax 0xFFFF#16) (at_ 0#16) = some (0xFFFF, .word) ∧ 0x10000 < 0xFFFF + Width.word.bytes) ∧
    (dataAccess (.incX .sp 2#16) (at_ 0#16) = some (0x10000, .byte) ∧ 0x10000 < 0x10000 + Width.byte.bytes) := by decide

end Sys2Proof.Tests
end

section
/-! PROOFS. Register writes by id and `SetFlags` (spec/10_state.md R23, R31). -/

namespace Sys2Proof

theorem Width.bits_pos (w : Width) : 0 < w.bits := by
  cases w <;> decide

end Sys2Proof

namespace Sys2Proof.Machine

/-- The frame of a register write among the registers: the other half of the parent is kept (R23). -/
theorem State.setReg_regsKeptBut (s : State) (r : RegId) (v : Int) : regsKeptBut [r] s (s.setReg r v) :=
  fun q hq => s.reg_setReg_other r q v (hq r List.mem_cons_self)

/-- Settles O18, from the read of the register written, the reads of the registers that share no storage with it, and
the frame of the record update. -/
theorem registerWriteById : Obligations.RegisterWriteById := by
  intro s r v
  refine ⟨?truncated, s.setReg_regsKeptBut r v, rfl⟩
  case truncated => exact_mod_cast s.reg_setReg_same r v

/-- Settles O19: `setFlags_flagsOfRaw` at a positive number of bits, which both widths have. -/
theorem setFlagsFromTheRawResult : Obligations.SetFlagsFromTheRawResult :=
  fun s raw w => ⟨setFlags_flagsOfRaw s raw w.bits w.bits_pos, rfl⟩

end Sys2Proof.Machine
end

section
/-! PROOFS. `MemRead` and `MemWrite` of one and two bytes, and their bounds (spec/20_memory.md R51, R52). -/

namespace Sys2Proof.Machine

/-- The bytes an access names decide whether a read answers, and then with the value in memory (R51). -/
theorem State.memRead_eq_ite (s : State) (a : Nat) (w : Width) :
    s.memRead a w = if a + w.bytes ≤ 0x10000 then some (valueAt s.mem a w) else none := by
  rcases memRead_cases s a w with ⟨hin, e⟩ | ⟨hout, e⟩
  · rw [if_pos hin, e]
  · rw [if_neg (Nat.not_le.2 hout), e]

/-- A write inside the bounds answers the state with the bytes stored and nothing else different (R52). -/
theorem State.memWrite_of_inBounds (s : State) {a : Nat} {w : Width} (v : Int) (h : inBounds a w = true) :
    s.memWrite a w v = some { s with mem := storeBytes s.mem a w v } :=
  if_pos h

/-- A write that names a byte beyond 0xFFFF answers no state, also where its first byte is in range (R52). -/
theorem State.memWrite_of_beyond (s : State) {a : Nat} {w : Width} (v : Int) (h : 0x10000 < a + w.bytes) :
    s.memWrite a w v = none := by
  rcases memWrite_cases s a w v with ⟨hin, -⟩ | ⟨-, e⟩
  · exact absurd hin (Nat.not_le.2 h)
  · exact e

/-- The frame of a store among the bytes of memory (R52). -/
theorem memKeptBut_storeBytes (s : State) (a : Nat) (w : Width) (v : Int) :
    memKeptBut a w.bytes s { s with mem := storeBytes s.mem a w v } :=
  fun _ outside => read_storeBytes_other s.mem w v outside

/-- Settles O20: `memRead_eq_ite` at each width, whose bound is the one on the last byte's address. -/
theorem memoryRead : Obligations.MemoryRead := by
  intro s a
  have last_le (n : Nat) : a + (n + 1) ≤ 0x10000 ↔ a + n ≤ 0xFFFF := by omega
  constructor
  case left => simp only [s.memRead_eq_ite a .byte, Width.bytes, valueAt, last_le 0, Nat.add_zero]
  case right => simp only [s.memRead_eq_ite a .word, Width.bytes, valueAt, last_le 1]

/-- Settles O21: inside the bounds the state answered is the one with the bytes stored, whose bytes are read back one by
one and whose other bytes are kept; beyond them no state is answered. -/
theorem memoryWrite : Obligations.MemoryWrite := by
  intro s a v hwf
  refine ⟨fun ha => ?byteIn, fun ha => ?byteOut, fun ha => ?wordIn, fun ha => ?wordOut⟩
  case byteIn =>
    have hb : inBounds a .byte = true := (inBounds_iff a .byte).2 (Nat.succ_le_succ ha)
    exact ⟨_, s.memWrite_of_inBounds v hb, read_storeBytes_low v hb hwf, memKeptBut_storeBytes s a .byte v, rfl⟩
  case byteOut => exact s.memWrite_of_beyond v (Nat.succ_lt_succ ha)
  case wordIn =>
    have hb : inBounds a .word = true := (inBounds_iff a .word).2 (Nat.succ_le_succ ha)
    exact ⟨_, s.memWrite_of_inBounds v hb, read_storeBytes_low v hb hwf, read_storeBytes_high v hb hwf,
      memKeptBut_storeBytes s a .word v, rfl⟩
  case wordOut => exact s.memWrite_of_beyond v (Nat.succ_lt_succ ha)

end Sys2Proof.Machine
end

section
/-! PROOFS. INT: the service that emits a character, and the numbers and services without effect (spec/44_system.md
R222, R223, R225). -/

namespace Sys2Proof.Machine

/-- `exec` on INT, by its meaning (R222). -/
theorem exec_int (n : Byte) (s : State) : exec (.int n) s = execInt n s := rfl

/-- Where the address just past an instruction of `len` bytes is an address, its writes and its output commit (R74). -/
theorem commit_advance {s t : State} {len : Nat} {out : Option (List Byte)} (h : s.ip.toNat + len ≤ 0xFFFF) :
    commit s t ((s.ip.toNat : Int) + len) out =
      .next { t with ip := BitVec.ofNat 16 (s.ip.toNat + len), output := out } := by
  rw [← Int.natCast_add, commit_of_range (Int.natCast_nonneg _) (Int.ofNat_le.2 h), ofInt_natCast]

/-- Only number 0x21 has services (R225). -/
theorem execInt_of_ne {n : Byte} (s : State) (h : n ≠ 0x21#8) : execInt n s = complete s s 2 :=
  if_neg fun hn => h (BitVec.eq_of_toNat_eq hn)

/-- AH = 0x02 chooses the service that emits a character (R223). -/
theorem serviceCall_of_ah_two {s : State} (len : Nat) (h : s.reg .ah = 0x02) :
    serviceCall len s = emitCharacter len s :=
  if_pos h

/-- An AH that names neither service is a no-op (R225). -/
theorem serviceCall_of_other_ah {s : State} (len : Nat) (h2 : s.reg .ah ≠ 0x02) (h9 : s.reg .ah ≠ 0x09) :
    serviceCall len s = complete s s len := by
  rw [serviceCall, if_neg h2, if_neg h9]

/-- INT without a service, by its number or by AH, only completes its two bytes (R225). -/
theorem execInt_of_no_service {n : Byte} {s : State} (h : n ≠ 0x21#8 ∨ (s.reg .ah ≠ 0x02 ∧ s.reg .ah ≠ 0x09)) :
    execInt n s = complete s s 2 := by
  by_cases hn : n = 0x21#8
  case neg => exact execInt_of_ne s hn
  case pos =>
    obtain ⟨h2, h9⟩ := h.resolve_left (not_not_intro hn)
    rw [hn, execInt_service, serviceCall_of_other_ah 2 h2 h9]

/-- Settles O60: without a service the instruction only completes, and its next IP is an address. -/
theorem intOfAnotherServiceHasNoEffect : Obligations.IntOfAnotherServiceHasNoEffect := by
  intro s n hip hno
  rw [exec_int, execInt_of_no_service hno, complete_of_range hip]

/-- Settles O58: the byte emitted is the low byte of DX, which is what DL reads. -/
theorem intEmitsTheCharacter : Obligations.IntEmitsTheCharacter := by
  intro s hip hah
  have dl_eq : (lowByte s.regs.dx).toNat = s.reg .dl := rfl
  refine ⟨lowByte s.regs.dx, dl_eq, ?_⟩
  rw [exec_int, execInt_service, serviceCall_of_ah_two 2 hah, emitCharacter, commit_advance hip]

end Sys2Proof.Machine
end

section
/-! PROOFS. Decode and encode are inverse, and the opcode byte fixes the length (spec/30_encoding.md R73, R75 to R87).
-/

namespace Sys2Proof

/-! ### Decode of encode -/

/-- Settles O9: the opcode byte chooses the constructor's parser, which reads the constructor's own fields back. -/
theorem decodeOfEncode : Obligations.DecodeOfEncode := by
  intro i rest
  cases i with
  | movRR d r | addRR d r | subRR d r | cmpRR d r | andRR d r | orRR d r | xorRR d r =>
    exact parseRR_bytes _ d r rest
  | movRI r w | addRI r w | subRI r w | cmpRI r w | andRI r w | orRI r w | xorRI r w | movRM r w | addRM r w
  | subRM r w | cmpRM r w | andRM r w | orRM r w | xorRM r w | movMR r w =>
    exact parseRegWord_bytes _ r w rest
  | movRX r idx base | addRX r idx base | subRX r idx base | cmpRX r idx base | andRX r idx base
  | orRX r idx base | xorRX r idx base | movXR r idx base =>
    exact parseRX_bytes _ r idx base rest
  | movMI addr imm => exact parseMI_bytes _ addr imm rest
  | movXI idx base imm => exact parseXI_bytes _ idx base imm rest
  | incR r | decR r | notR r | mulR r | divR r =>
    exact parseR_bytes _ r rest
  | incM addr | decM addr | notM addr | mulM addr | divM addr =>
    exact parseM_bytes _ addr rest
  | incX idx base | decX idx base | notX idx base | mulX idx base | divX idx base =>
    exact parseRegWord_bytes _ idx base rest
  | jmp disp => exact parseM_bytes _ disp rest
  | je b | jne b | jl b | jle b | jg b | jge b | jb b | jae b | jbe b | ja b | loop b | int b =>
    exact parseJ8_bytes _ b rest
  | nop | hlt | ret => rfl

/-! ### Encode of decode

One lemma per parser: where each value it can make encodes to the opcode byte of number `n` and the parser's fields,
what it answers is encoded by the bytes it has read. -/

/-- A byte with a known number, the fields of `i` and a rest are the encoding of `i` and the rest. -/
theorem cons_eq_encode_append {op : Byte} {n : Nat} {i : Instr} {fields bs rest : List Byte} (hop : op.toNat = n)
    (henc : encode i = BitVec.ofNat 8 n :: fields) (hbs : bs = fields ++ rest) : op :: bs = encode i ++ rest := by
  subst hop
  rw [henc, hbs, BitVec.ofNat_toNat, BitVec.setWidth_eq, List.cons_append]

section
variable {op : Byte} {n : Nat} {i : Instr} {bs rest : List Byte}

theorem encode_of_parseRR {mk : RegId → RegId → Instr} (hop : op.toNat = n)
    (hmk : ∀ d r, encode (mk d r) = [BitVec.ofNat 8 n, packRR d r]) (h : parseRR mk bs = .ok (i, rest)) :
    op :: bs = encode i ++ rest := by
  obtain ⟨d, r, rfl, hbs⟩ := parseRR_inv h
  exact cons_eq_encode_append hop (hmk d r) hbs

theorem encode_of_parseRegWord {mk : RegId → Word → Instr} (hop : op.toNat = n)
    (hmk : ∀ r w, encode (mk r w) = [BitVec.ofNat 8 n, regIdByte r, lowByte w, highByte w])
    (h : parseRegWord mk bs = .ok (i, rest)) : op :: bs = encode i ++ rest := by
  obtain ⟨r, w, rfl, hbs⟩ := parseRegWord_inv h
  exact cons_eq_encode_append hop (hmk r w) hbs

theorem encode_of_parseRX {mk : RegId → RegId → Word → Instr} (hop : op.toNat = n)
    (hmk : ∀ r x w, encode (mk r x w) = [BitVec.ofNat 8 n, regIdByte r, regIdByte x, lowByte w, highByte w])
    (h : parseRX mk bs = .ok (i, rest)) : op :: bs = encode i ++ rest := by
  obtain ⟨r, x, w, rfl, hbs⟩ := parseRX_inv h
  exact cons_eq_encode_append hop (hmk r x w) hbs

theorem encode_of_parseMI {mk : Word → Byte → Instr} (hop : op.toNat = n)
    (hmk : ∀ w b, encode (mk w b) = [BitVec.ofNat 8 n, lowByte w, highByte w, b])
    (h : parseMI mk bs = .ok (i, rest)) : op :: bs = encode i ++ rest := by
  obtain ⟨w, b, rfl, hbs⟩ := parseMI_inv h
  exact cons_eq_encode_append hop (hmk w b) hbs

theorem encode_of_parseXI {mk : RegId → Word → Byte → Instr} (hop : op.toNat = n)
    (hmk : ∀ x w b, encode (mk x w b) = [BitVec.ofNat 8 n, regIdByte x, lowByte w, highByte w, b])
    (h : parseXI mk bs = .ok (i, rest)) : op :: bs = encode i ++ rest := by
  obtain ⟨x, w, b, rfl, hbs⟩ := parseXI_inv h
  exact cons_eq_encode_append hop (hmk x w b) hbs

theorem encode_of_parseR {mk : RegId → Instr} (hop : op.toNat = n)
    (hmk : ∀ r, encode (mk r) = [BitVec.ofNat 8 n, regIdByte r]) (h : parseR mk bs = .ok (i, rest)) :
    op :: bs = encode i ++ rest := by
  obtain ⟨r, rfl, hbs⟩ := parseR_inv h
  exact cons_eq_encode_append hop (hmk r) hbs

theorem encode_of_parseM {mk : Word → Instr} (hop : op.toNat = n)
    (hmk : ∀ w, encode (mk w) = [BitVec.ofNat 8 n, lowByte w, highByte w]) (h : parseM mk bs = .ok (i, rest)) :
    op :: bs = encode i ++ rest := by
  obtain ⟨w, rfl, hbs⟩ := parseM_inv h
  exact cons_eq_encode_append hop (hmk w) hbs

theorem encode_of_parseJ8 {mk : Byte → Instr} (hop : op.toNat = n)
    (hmk : ∀ b, encode (mk b) = [BitVec.ofNat 8 n, b]) (h : parseJ8 mk bs = .ok (i, rest)) :
    op :: bs = encode i ++ rest := by
  obtain ⟨b, rfl, hbs⟩ := parseJ8_inv h
  exact cons_eq_encode_append hop (hmk b) hbs

/-- Format `N` reads no field. -/
theorem encode_of_parseN {j : Instr} (hop : op.toNat = n) (hj : encode j = [BitVec.ofNat 8 n])
    (h : (.ok (j, bs) : Decoded) = .ok (i, rest)) : op :: bs = encode i ++ rest := by
  obtain ⟨rfl, hbs⟩ : j = i ∧ bs = rest := by simpa using h
  exact cons_eq_encode_append hop hj hbs

end

/-- Settles O10: the 63 arms of the decoder, by the parser that each calls. -/
theorem encodeOfDecode : Obligations.EncodeOfDecode := by
  intro bs i rest h
  cases bs with
  | nil => cases h
  | cons op bs =>
    rw [decode] at h
    split at h
    -- RR
    case h_1 e | h_5 e | h_7 e | h_9 e | h_15 e | h_17 e | h_23 e => exact encode_of_parseRR e (fun _ _ => rfl) h
    -- RI
    case h_2 e | h_6 e | h_8 e | h_10 e | h_16 e | h_18 e | h_24 e => exact encode_of_parseRegWord e (fun _ _ => rfl) h
    -- RM
    case h_3 e | h_11 e | h_13 e | h_19 e | h_21 e | h_25 e | h_40 e | h_42 e =>
      exact encode_of_parseRegWord e (fun _ _ => rfl) h
    -- RX
    case h_4 e | h_12 e | h_14 e | h_20 e | h_22 e | h_26 e | h_39 e | h_41 e =>
      exact encode_of_parseRX e (fun _ _ _ => rfl) h
    -- R
    case h_27 e | h_28 e | h_61 e | h_62 e | h_63 e => exact encode_of_parseR e (fun _ => rfl) h
    -- M
    case h_44 e | h_46 e | h_48 e | h_50 e | h_52 e => exact encode_of_parseM e (fun _ => rfl) h
    -- X
    case h_45 e | h_47 e | h_49 e | h_51 e | h_53 e => exact encode_of_parseRegWord e (fun _ _ => rfl) h
    -- J8
    case h_29 e | h_30 e | h_31 e | h_32 e | h_33 e | h_34 e | h_35 e | h_36 e | h_37 e | h_38 e | h_58 e =>
      exact encode_of_parseJ8 e (fun _ => rfl) h
    -- N, MI, XI, I8, J16
    case h_43 e | h_54 e | h_60 e => exact encode_of_parseN e rfl h
    case h_55 e => exact encode_of_parseMI e (fun _ _ => rfl) h
    case h_56 e => exact encode_of_parseXI e (fun _ _ _ => rfl) h
    case h_57 e => exact encode_of_parseJ8 e (fun _ => rfl) h
    case h_59 e => exact encode_of_parseM e (fun _ => rfl) h
    -- an unassigned byte
    case h_64 => cases h

/-! ### Lengths -/

/-- An encoding is as long as its format says (R73, R75). -/
theorem encode_length (i : Instr) : (encode i).length = instrLength i := by
  cases i <;> rfl

/-- No format is shorter than one byte or longer than five (R73). -/
theorem formatLength_bounds (f : Format) : 1 ≤ formatLength f ∧ formatLength f ≤ 5 := by
  cases f <;> decide

/-- What decodes has the format of its opcode byte in the opcode map (R73, R83). -/
theorem opcodeFormat_of_decode {op : Byte} {bs rest : List Byte} {i : Instr} (h : decode (op :: bs) = .ok (i, rest)) :
    Machine.opcodeFormat op.toNat = some (instrFormat i) := by
  obtain ⟨op', fields, henc, hf⟩ := Machine.encode_opcode i
  have hbytes := encodeOfDecode _ _ _ h
  rw [henc, List.cons_append] at hbytes
  rwa [(List.cons.inj hbytes).1]

/-- Settles O11: the bytes are the encoding and the rest (`encodeOfDecode`), and two instructions with one opcode byte
have one format. -/
theorem opcodeFixesTheLength : Obligations.OpcodeFixesTheLength := by
  intro op bs rest i h
  obtain ⟨one_le, le_five⟩ := formatLength_bounds (instrFormat i)
  refine ⟨?one_le, ?le_five, ?taken, fun bs' rest' j hj => ?same⟩
  case one_le => rwa [encode_length]
  case le_five => rwa [encode_length]
  case taken => rw [encodeOfDecode _ _ _ h, List.length_append]
  case same =>
    have hf : instrFormat j = instrFormat i :=
      Option.some.inj ((opcodeFormat_of_decode hj).symm.trans (opcodeFormat_of_decode h))
    rw [encode_length, encode_length, instrLength, instrLength, hf]

/-- Settles O8: each word is read by the parser of its opcode byte, byte for byte. -/
theorem specWordsDecode : Obligations.SpecWordsDecode :=
  ⟨rfl, rfl, rfl, rfl, rfl, rfl, rfl, rfl, rfl, rfl, rfl, rfl⟩

end Sys2Proof
end

section
/-! PROOFS. `new_state`, `load`, reset and the host's bookkeeping (spec/70_reset_and_hazards.md R270 to R277). -/

namespace Sys2Proof.Machine

/-- Settles O1: every field of `new_state` is written out in `State.reset`, and empty memory lists no byte. -/
theorem newStateHoldsInitialValues : Obligations.NewStateHoldsInitialValues :=
  ⟨fun _ => ⟨rfl, rfl, rfl, rfl, fun _ => rfl, rfl, rfl, rfl, rfl, rfl⟩, rfl⟩

/-- After `load` memory reads as the image (R272). -/
theorem read_loadImage (s : State) {image : List Byte} (entry : Word) (hl : image.length = 0x10000) {a : Nat}
    (ha : a < image.length) : (loadImage s image entry).mem.read a = image[a] := by
  have hbyte := read_imageFrom image (a := 0) ha
  rw [loadImage_mem, List.take_of_length_le hl.le]
  rwa [Nat.zero_add] at hbyte

/-- Settles O2: memory by `read_loadImage`; the other fields are those `load` writes, or the old ones. -/
theorem loadCopiesTheWholeImage : Obligations.LoadCopiesTheWholeImage :=
  fun h _ entry hl => ⟨fun _ ha => read_loadImage h.core entry hl ha, rfl, ⟨rfl, rfl⟩, rfl, rfl, rfl, rfl, rfl⟩

/-- Settles O3: memory by `read_loadImage`, and the first byte fetched is the byte of memory at IP, the entry. -/
theorem resetStartsAtTheEntry : Obligations.ResetStartsAtTheEntry := by
  refine ⟨rfl, fun c image hl => ?_⟩
  have hmem : ∀ a, ∀ ha : a < image.length, (resetWith c image).mem.read a = image[a] :=
    fun _ ha => read_loadImage _ c.entry hl ha
  have hentry : c.entry.toNat < image.length := hl ▸ c.entry.isLt
  refine ⟨rfl, rfl, rfl, rfl, hmem, rfl, rfl, ?firstByte⟩
  case firstByte =>
    rw [fetchBytes_cons, List.head?_cons, List.getElem?_eq_getElem hentry, ← hmem _ hentry]
    rfl

/-- Settles O4: memory lists nothing, and the other fields are written out in `State.reset`. -/
theorem resetMeetsTheInvariant : Obligations.ResetMeetsTheInvariant where
  memory := wf_reset
  segments := rfl
  overflowFlag := rfl
  inertFlags := ⟨rfl, rfl, rfl, rfl, rfl⟩
  oneEnd := nofun

/-! ### The host's record of a step -/

/-- The log after a step: the step's output, if any, is at its end (R276). -/
theorem absorb_log (h : HostState) (t : State) : (absorb h t).log = h.log ++ t.output.toList := by
  unfold absorb
  cases t.fault <;> cases t.output <;> simp

/-- What the host does with a faulted state (R276). -/
theorem absorb_of_fault (h : HostState) {t : State} {c : FaultCode} (hf : t.fault = some c) :
    (absorb h t).core = t ∧ (absorb h t).status = .error ∧ (absorb h t).error = some c := by
  simp [absorb, hf]

/-- What the host does with a state that has no fault (R276). -/
theorem absorb_of_no_fault (h : HostState) {t : State} (hf : t.fault = none) :
    (absorb h t).core = t ∧ (absorb h t).status = (if t.halted then .idle else h.status) ∧
      (absorb h t).error = h.error := by
  simp [absorb, hf]

theorem absorb_core (h : HostState) (t : State) : (absorb h t).core = t := by
  cases hf : t.fault with
  | some c => exact (absorb_of_fault h hf).1
  | none => exact (absorb_of_no_fault h hf).1

/-- A single step of the host is the core's step, absorbed (R276). -/
theorem singleStep_of_next {h : HostState} {t : State} (hs : step h.core = .next t) :
    singleStep h = .next (absorb h t) := by
  rw [singleStep, hs]

/-- A free run takes no step unless the status is running (R277). -/
theorem freeRun_of_not_running {h : HostState} (n : Nat) (hs : h.status ≠ .running) : freeRun n h = .next h := by
  cases n with
  | zero => rfl
  | succ n => exact if_neg hs

/-- Settles O7: the single step absorbs the core's next state, by its fault and halted marks. -/
theorem hostRecordsEachStep : Obligations.HostRecordsEachStep := by
  refine fun h => ⟨fun t hs => ?_, freeRun_of_not_running⟩
  refine ⟨absorb h t, singleStep_of_next hs, absorb_core h t, absorb_log h t, fun c hf => ?faulted,
    fun hf => ?clean⟩
  case faulted => exact (absorb_of_fault h hf).2
  case clean =>
    obtain ⟨-, hstatus, herror⟩ := absorb_of_no_fault h hf
    exact ⟨herror, fun hh => by rw [hstatus, hh, if_pos rfl], fun hh => by rw [hstatus, hh]; rfl⟩

end Sys2Proof.Machine
end

section
/-! PROOFS. One step: which states have one, and what it makes of the bytes at IP (spec/30_encoding.md R70 to R85). -/

namespace Sys2Proof.Machine

/-! ### Which states have a step -/

/-- A runnable state whose bytes decode runs the instruction (R72). -/
theorem step_of_decode {s : State} {i : Instr} {rest : List Byte} (hr : s.runnable)
    (hd : decode (fetchBytes s) = .ok (i, rest)) : step s = exec i s := by
  obtain ⟨hh, hf⟩ := hr
  simp [step, hh, hf, fetchInstr, hd]

/-- `exec` always answers a next state: a fault is one (R243). -/
theorem exec_next (i : Instr) (s : State) : ∃ t, exec i s = .next t := by
  rcases exec_cases i s with ⟨c, len, e, -, -⟩ | ⟨t, next, out, e, -⟩
  · exact ⟨takeFault s c len, e⟩
  · exact ⟨_, e⟩

/-- Bytes that are no instruction always answer a next state. -/
theorem undecodable_next (e : DecodeError) (s : State) : ∃ t, undecodable e s = .next t := by
  rcases undecodable_cases e s with ⟨c, -, h⟩ | h
  · exact ⟨takeFault s c 0, h⟩
  · exact ⟨_, h⟩

/-- Settles O5: the halted mark is asked first, then the fault mark. -/
theorem terminalStatesHaveNoStep : Obligations.TerminalStatesHaveNoStep := by
  refine fun s => ⟨fun hh => ?halted, fun hh c hc => ?faulted⟩
  case halted => rw [step, hh, if_pos rfl]
  case faulted => simp [step, hh, hc]

/-- Settles O12, which is the rule `step_of_decode`. -/
theorem stepRunsTheDecodedInstruction : Obligations.StepRunsTheDecodedInstruction :=
  fun _ _ _ hr hd => step_of_decode hr hd

/-- Settles O6: the fetched bytes are an instruction or none, and both ways a next state is answered. -/
theorem runnableStatesHaveAStep : Obligations.RunnableStatesHaveAStep := by
  intro s hr
  cases hd : decode (fetchBytes s) with
  | ok p => rw [step_of_decode hr hd]; exact exec_next p.1 s
  | error e => rw [step_error hr hd]; exact undecodable_next e s

/-! ### The bytes at IP -/

/-- The fetch ends after five bytes or at the end of memory (R71). -/
theorem operandBytes_length (s : State) :
    (fetchFrom s.mem (s.ip.toNat + 1) 4).length = min 4 (0x10000 - (s.ip.toNat + 1)) :=
  fetchFrom_length s.mem 4 _

/-- Settles O13: the fetch starts with the encoding, which decodes to the instruction whatever follows. -/
theorem stepRunsTheBytesAtIp : Obligations.StepRunsTheBytesAtIp := by
  intro s i hr hend hbytes
  have hlen : (encode i).length ≤ 5 := encode_length i ▸ (formatLength_bounds (instrFormat i)).2
  obtain ⟨rest, hfetch⟩ := fetchFrom_of_bytesAt s.mem (encode i) 5 s.ip.toNat hlen hend hbytes
  exact step_of_decode hr (by rw [fetchBytes, hfetch, decodeOfEncode])

/-- A step at an unassigned opcode byte (R85). -/
theorem step_of_unassigned {s : State} (hr : s.runnable) (hop : opcodeFormat (s.mem.read s.ip.toNat).toNat = none) :
    ∃ b, step s = undecodable (.unassigned b) s := by
  obtain ⟨b, hb⟩ := decode_unassigned _ (fetchFrom s.mem (s.ip.toNat + 1) 4) hop
  exact ⟨b, step_error hr (by rw [fetchBytes_cons, hb])⟩

/-- Under `Fault` an unassigned opcode byte raises `UnknownOpcode`. -/
theorem undecodable_unassigned_fault {s : State} (b : Byte) (hp : s.config.unknownOpcode = .fault) :
    undecodable (.unassigned b) s = raise s .unknownOpcode 0 := by
  simp only [undecodable, hp]

/-- Under `Nop` an unassigned opcode byte is an instruction of one byte without effect. -/
theorem undecodable_unassigned_nop {s : State} (b : Byte) (hp : s.config.unknownOpcode = .nop) :
    undecodable (.unassigned b) s = complete s s 1 := by
  simp only [undecodable, hp]

/-- Settles O14: the step is `undecodable` at the unassigned byte, which the policy sends to a fault or to the end of a
one-byte instruction. -/
theorem unassignedOpcodeFollowsThePolicy : Obligations.UnassignedOpcodeFollowsThePolicy := by
  refine ⟨by rfl, fun s hr hop => ?_⟩
  obtain ⟨b, hstep⟩ := step_of_unassigned hr hop
  rw [hstep]
  refine ⟨fun hp => ?fault, fun hp hip => ?nop, fun hp hip => ?nopAtTheEnd⟩
  case fault =>
    rw [undecodable_unassigned_fault b hp]
    exact raise_faultsWith s _ 0 rfl
  case nop => rw [undecodable_unassigned_nop b hp, complete_of_range hip]
  case nopAtTheEnd =>
    rw [undecodable_unassigned_nop b hp, complete_of_not_range (by omega)]
    exact raise_faultsWith s _ 0 rfl

/-- A register-id byte lies after the opcode byte and inside the format (R75). -/
theorem regByteOffset_bounds {f : Format} {k : Nat} (hk : k ∈ regByteOffsets f) : 1 ≤ k ∧ k < formatLength f := by
  revert k
  cases f <;> decide

/-- Settles O15: with all of its bytes fetched, the instruction is rejected for its register byte. -/
theorem registerByteAboveFifteenFaults : Obligations.RegisterByteAboveFifteenFaults := by
  intro s f k hr hop hend hk hbad
  have hlen := operandBytes_length s
  have hf := (formatLength_bounds f).2
  obtain ⟨hk1, hkf⟩ := regByteOffset_bounds hk
  have hkl : k - 1 < (fetchFrom s.mem (s.ip.toNat + 1) 4).length := by omega
  have hread : (fetchFrom s.mem (s.ip.toNat + 1) 4)[k - 1] = s.mem.read (s.ip.toNat + k) := by
    rw [fetchFrom_getElem, show s.ip.toNat + 1 + (k - 1) = s.ip.toNat + k by omega]
  obtain ⟨b, hb⟩ := decode_bad _ _ f hop (by omega) ⟨k, hk, hkl, by rwa [hread]⟩
  rw [step_error hr (by rw [fetchBytes_cons, hb])]
  exact raise_faultsWith s _ 0 rfl

/-- A step at an opcode byte whose format reaches beyond 0xFFFF raises `IpOutOfBounds` (R71). -/
theorem step_of_truncated {s : State} {f : Format} (hr : s.runnable)
    (hop : opcodeFormat (s.mem.read s.ip.toNat).toNat = some f) (hend : 0x10000 < s.ip.toNat + formatLength f) :
    faultsWith .ipOutOfBounds s (step s) := by
  have hlen := operandBytes_length s
  have hip := s.ip.isLt
  have hd := decode_truncated _ (fetchFrom s.mem (s.ip.toNat + 1) 4) f hop (by omega)
  rw [step_error hr (by rw [fetchBytes_cons, hd])]
  exact raise_faultsWith s _ 0 rfl

/-- Settles O16: the fetch ends before the format does, so the bytes are rejected as too few. -/
theorem operandFetchPastTheEndFaults : Obligations.OperandFetchPastTheEndFaults :=
  fun _ _ hr hop hend => step_of_truncated hr hop hend

end Sys2Proof.Machine
end

section
/-! PROOFS. Register reads by id (spec/10_state.md R21, R22) and the mixed-width views of memory (spec/20_memory.md
R54). -/

namespace Sys2Proof.Machine

/-- Settles O17: a half register is the low or the high byte of its parent, by arithmetic a remainder or a quotient. -/
theorem registerReadById : Obligations.RegisterReadById := by
  intro s
  have low (w : Word) : (lowByte w).toNat = w.toNat % 256 := lowByte_toNat w
  have high (w : Word) : (highByte w).toNat = w.toNat / 256 := highByte_toNat w
  exact ⟨low _, low _, low _, low _, high _, high _, high _, high _, rfl, rfl, rfl, rfl, rfl, rfl, rfl, rfl, s.reg_lt⟩

/-- What a write that answers a state has done (R52). -/
theorem State.memWrite_some {s t : State} {a : Nat} {w : Width} {v : Int} (h : s.memWrite a w v = some t) :
    inBounds a w = true ∧ t = { s with mem := storeBytes s.mem a w v } := by
  rcases memWrite_cases s a w v with ⟨hin, e⟩ | ⟨-, e⟩ <;> rw [e] at h
  · exact ⟨(inBounds_iff a w).2 hin, (Option.some.inj h).symm⟩
  · cases h

/-- Inside memory a read answers the value there (R51). -/
theorem State.memRead_of_inBounds (s : State) {a : Nat} {w : Width} (h : a + w.bytes ≤ 0x10000) :
    s.memRead a w = some (valueAt s.mem a w) := by
  rw [s.memRead_eq_ite, if_pos h]

/-- Settles O22: the two bytes of a 16-bit store are its remainder and its quotient by 256, and a 16-bit read of two
stored bytes puts them together. -/
theorem mixedWidthViewsAgree : Obligations.MixedWidthViewsAgree := by
  refine fun s a hwf ha => ⟨fun v t hv hw => ?wordThenBytes, fun b0 b1 t u h0 h1 hw0 hw1 => ?bytesThenWord⟩
  case wordThenBytes =>
    obtain ⟨hb, rfl⟩ := State.memWrite_some hw
    have hlow := read_storeBytes_low (v : Int) hb hwf
    have hhigh := read_storeBytes_high (v : Int) hb hwf
    rw [State.memRead_of_inBounds _ (by simp only [Width.bytes]; omega),
      State.memRead_of_inBounds _ (by simp only [Width.bytes]; omega)]
    exact ⟨congrArg some (by simp only [valueAt]; omega), congrArg some (by simp only [valueAt]; omega)⟩
  case bytesThenWord =>
    obtain ⟨hb0, rfl⟩ := State.memWrite_some hw0
    obtain ⟨hb1, rfl⟩ := State.memWrite_some hw1
    have hfirst := read_storeBytes_low (b0 : Int) hb0 hwf
    have hkept := read_storeBytes_other (storeBytes s.mem a .byte b0) .byte (b1 : Int) (.inl (Nat.lt_succ_self a))
    have hsecond := read_storeBytes_low (b1 : Int) hb1 (wf_storeBytes (b0 : Int) hb0 hwf)
    rw [State.memRead_of_inBounds _ (by simp only [Width.bytes]; omega)]
    refine congrArg some ?_
    simp only [valueAt, hkept]
    omega

end Sys2Proof.Machine
end

section
/-! PROOFS. What holds of every instruction and every step: the invariant, the faulted state, IP, flags, memory, halting
and output. All of it comes from the ways in which an instruction and a step can end (`Ends`, `StepEnds`). -/

namespace Sys2Proof.Machine

/-! ### How an instruction ends, and how a step ends -/

/-- The next states that `exec` can answer for `i` from `s`: a faulted state with its cause, or the writes of `i` with
the next IP and the output set. `exec_ends` ties it to `exec`. -/
inductive Ends (i : Instr) (s : State) : State → Prop
  | faulted (c : FaultCode) (len : Nat) (divideLength : c.isDivide = true → len = instrLength i)
      (cause : FaultCause i s c) : Ends i s (takeFault s c len)
  | committed (u : State) (next : Int) (out : Option (List Byte)) (nonneg : 0 ≤ next) (inMemory : next ≤ 0xFFFF)
      (writes : Writes i s u) (advances : transfersControl i = false → next = (s.ip.toNat : Int) + instrLength i)
      (emits : out = none ∨ (i = .int 0x21#8 ∧ (s.reg .ah = 2 ∨ s.reg .ah = 9))) :
      Ends i s { u with ip := BitVec.ofInt 16 next, output := out }

theorem exec_ends {i : Instr} {s t : State} (h : exec i s = .next t) : Ends i s t := by
  rcases exec_cases i s with ⟨c, len, e, hlen, hcause⟩ | ⟨u, next, out, e, h0, h1, hw, hnext, hout⟩ <;> rw [e] at h
  · obtain rfl := Host.Outcome.next.inj h
    exact .faulted c len hlen hcause
  · obtain rfl := Host.Outcome.next.inj h
    exact .committed u next out h0 h1 hw hnext hout

/-- The next states that `step` can answer from `s`. `step_ends` ties it to `step`. -/
inductive StepEnds (s : State) : State → Prop
  | executed {t : State} (i : Instr) (rest : List Byte) (decoded : decode (fetchBytes s) = .ok (i, rest))
      (ends : Ends i s t) : StepEnds s t
  | rejected (c : FaultCode) (notDivide : c.isDivide = false) : StepEnds s (takeFault s c 0)
  | skipped : StepEnds s { s with ip := BitVec.ofNat 16 (s.ip.toNat + 1), output := none }

theorem step_ends {s t : State} (h : step s = .next t) : s.runnable ∧ StepEnds s t := by
  obtain ⟨hr, ⟨i, rest, hd, he⟩ | ⟨e, -, hu⟩⟩ := step_cases h
  · exact ⟨hr, .executed i rest hd (exec_ends he)⟩
  · refine ⟨hr, ?_⟩
    rcases undecodable_cases e s with ⟨c, hc, e⟩ | e <;> rw [e] at hu
    · obtain rfl := Host.Outcome.next.inj hu
      exact .rejected c hc
    · obtain rfl := Host.Outcome.next.inj hu
      exact .skipped

/-- What decodes stands in memory at IP. -/
theorem bytesAt_of_decode {s : State} {i : Instr} {rest : List Byte} (hd : decode (fetchBytes s) = .ok (i, rest)) :
    bytesAt s.mem s.ip.toNat (encode i) := by
  intro k hk
  have hbytes : fetchFrom s.mem s.ip.toNat 5 = encode i ++ rest := encodeOfDecode _ _ _ hd
  have hk' : k < (fetchFrom s.mem s.ip.toNat 5).length := by rw [hbytes, List.length_append]; omega
  rw [← fetchFrom_getElem s.mem 5 s.ip.toNat k hk']
  simp only [hbytes, List.getElem_append_left hk]

/-! ### The invariant -/

/-- The writes of an instruction keep memory in canonical form: a store lies inside memory. -/
theorem Writes.mem_wf {i : Instr} {s u : State} (h : Writes i s u) (hwf : s.mem.wf = true) : u.mem.wf = true := by
  obtain e | ⟨-, a, w, v, -, hin, e⟩ := h.mem <;> rw [e]
  · exact hwf
  · exact wf_storeBytes v ((inBounds_iff a w).2 hin) hwf

/-- A state that agrees with one meeting the invariant on the segment registers and the flags no instruction writes
meets it too, where its memory is in canonical form and it is not halted and faulted at once. -/
theorem State.Inv.of_kept {s u : State} (h : s.Inv) (hmem : u.mem.wf = true) (hsegs : u.segs = s.segs)
    (hflags : inertFlagsKept s u) (hend : u.halted = true → u.fault = none) : u.Inv := by
  obtain ⟨pf, af, tf, ief, df, ovf⟩ := hflags
  obtain ⟨hpf, haf, htf, hief, hdf⟩ := h.inertFlags
  exact {
    memory := hmem
    segments := hsegs.trans h.segments
    overflowFlag := ovf.trans h.overflowFlag
    inertFlags := ⟨pf.trans hpf, af.trans haf, tf.trans htf, ief.trans hief, df.trans hdf⟩
    oneEnd := hend }

theorem inertFlagsKept_of_flags_eq {s t : State} (h : t.flags = s.flags) : inertFlagsKept s t := by
  rw [inertFlagsKept, h]
  exact ⟨rfl, rfl, rfl, rfl, rfl, rfl⟩

/-- A faulted state keeps the invariant, where the state before was not halted. -/
theorem State.Inv.takeFault {s : State} (h : s.Inv) (hh : s.halted = false) (c : FaultCode) (len : Nat) :
    (takeFault s c len).Inv :=
  h.of_kept h.memory rfl (inertFlagsKept_of_flags_eq rfl) fun hh' => absurd (hh.symm.trans hh') Bool.false_ne_true

/-- Settles O23, by the ways in which a step can end. -/
theorem everyStepKeepsTheInvariant : Obligations.EveryStepKeepsTheInvariant := by
  intro s t hinv hstep
  obtain ⟨⟨hh, hf⟩, hends⟩ := step_ends hstep
  cases hends with
  | executed i rest hd hends =>
    cases hends with
    | faulted c len _ _ => exact hinv.takeFault hh c len
    | committed u next out _ _ hw _ _ =>
      exact hinv.of_kept (hw.mem_wf hinv.memory) hw.segs hw.inert fun _ => hw.fault.trans hf
  | rejected c _ => exact hinv.takeFault hh c 0
  | skipped => exact hinv.of_kept hinv.memory rfl (inertFlagsKept_of_flags_eq rfl) fun _ => hf

/-! ### Flags -/

/-- However an instruction ends, it keeps the flags that no instruction writes (R30). -/
theorem Ends.inertFlagsKept {i : Instr} {s t : State} (h : Ends i s t) : inertFlagsKept s t := by
  cases h with
  | faulted c len _ _ => exact inertFlagsKept_of_flags_eq rfl
  | committed u next out _ _ hw _ _ => exact hw.inert

/-- Settles O26: a fault writes no flag, and the writes of an instruction outside the table write none. -/
theorem onlyTheListedInstructionsWriteFlags : Obligations.OnlyTheListedInstructionsWriteFlags := by
  intro i s t h
  have hends := exec_ends h
  refine ⟨fun hno => ?_, hends.inertFlagsKept⟩
  cases hends with
  | faulted c len _ _ => rfl
  | committed u next out _ _ hw _ _ => exact hw.flags hno

/-- However a step ends, it keeps the flags that no instruction writes (R30). -/
theorem StepEnds.inertFlagsKept {s t : State} (h : StepEnds s t) : Machine.inertFlagsKept s t := by
  cases h with
  | executed i rest _ hends => exact hends.inertFlagsKept
  | rejected c _ => exact inertFlagsKept_of_flags_eq rfl
  | skipped => exact inertFlagsKept_of_flags_eq rfl

/-- Settles O25: OF is one of the flags that every step keeps. -/
theorem overflowFlagIsNeverWritten : Obligations.OverflowFlagIsNeverWritten := by
  refine ⟨rfl, fun s t hstep => ?_⟩
  obtain ⟨-, -, -, -, -, hovf⟩ := (step_ends hstep).2.inertFlagsKept
  exact hovf

/-! ### Faults -/

theorem isDivide_iff (c : FaultCode) : c.isDivide = true ↔ c = .divideByZero ∨ c = .divideOverflow := by
  cases c <;> decide

/-- A fault other than a divide fault leaves IP at the instruction (R243(c)). -/
theorem takeFault_ip_of_not_divide {s : State} {c : FaultCode} {len : Nat}
    (h : c ≠ .divideByZero ∧ c ≠ .divideOverflow) : (takeFault s c len).ip = s.ip := by
  refine faultedIp_of_not_divide s c len ?_
  rw [← Bool.not_eq_true, isDivide_iff, not_or]
  exact h

/-- A divide fault leaves IP after the instruction, where that is an address (R243(c)). -/
theorem takeFault_ip_of_divide {s : State} {c : FaultCode} {len : Nat} (h : c = .divideByZero ∨ c = .divideOverflow)
    (hip : s.ip.toNat + len ≤ 0xFFFF) : (takeFault s c len).ip.toNat = s.ip.toNat + len := by
  rw [takeFault_ip, faultedIp, if_pos ((isDivide_iff c).2 h), if_neg (by omega), BitVec.toNat_ofNat]
  omega

/-- Settles O27: only the two ways to end in `takeFault` leave a fault mark, and it changes the mark and IP alone. -/
theorem faultingStepCommitsNothing : Obligations.FaultingStepCommitsNothing := by
  intro s t c hr hstep hc
  obtain ⟨-, hf⟩ := hr
  cases (step_ends hstep).2 with
  | executed i rest hd hends =>
    cases hends with
    | faulted c' len hlen _ =>
      obtain rfl : c' = c := Option.some.inj hc
      refine ⟨rfl, rfl, rfl, rfl, rfl, rfl, rfl, takeFault_ip_of_not_divide, fun hdiv =>
        ⟨i, rest, hd, fun hip => ?_⟩⟩
      rw [encode_length, ← hlen ((isDivide_iff c').2 hdiv)] at hip ⊢
      exact takeFault_ip_of_divide hdiv hip
    | committed u next out _ _ hw _ _ => cases hc.symm.trans (hw.fault.trans hf)
  | rejected c' hnd =>
    obtain rfl : c' = c := Option.some.inj hc
    refine ⟨rfl, rfl, rfl, rfl, rfl, rfl, rfl, takeFault_ip_of_not_divide, fun hdiv => ?_⟩
    rw [(isDivide_iff c').2 hdiv] at hnd
    cases hnd
  | skipped => cases hc.symm.trans hf

/-! ### Halting and output -/

/-- Settles O28: of the writes only those of HLT touch the halted mark, and HLT is the byte 0xF4. -/
theorem onlyHltHalts : Obligations.OnlyHltHalts := by
  intro s t hr hstep hhalt
  obtain ⟨hh, -⟩ := hr
  cases (step_ends hstep).2 with
  | executed i rest hd hends =>
    cases hends with
    | faulted c len _ _ => cases hh.symm.trans hhalt
    | committed u next out _ _ hw _ _ =>
      obtain hkept | rfl := hw.halted
      · cases hh.symm.trans (hkept.symm.trans hhalt)
      · exact bytesAt_of_decode hd 0 Nat.one_pos
  | rejected c _ => cases hh.symm.trans hhalt
  | skipped => cases hh.symm.trans hhalt

/-- Settles O29: only INT 21h with one of the two services commits with an output, and it is the bytes CD 21. -/
theorem onlyInt21hEmits : Obligations.OnlyInt21hEmits := by
  intro s t out hr hstep hout
  cases (step_ends hstep).2 with
  | executed i rest hd hends =>
    cases hends with
    | faulted c len _ _ => cases hout
    | committed u next out' _ _ _ _ hemits =>
      obtain hnone | ⟨rfl, hah⟩ := hemits
      · cases hnone.symm.trans hout
      · exact ⟨bytesAt_of_decode hd 0 Nat.two_pos, bytesAt_of_decode hd 1 Nat.one_lt_two, hah⟩
  | rejected c _ => cases hout
  | skipped => cases hout

/-! ### The address after the instruction -/

/-- Settles O30: without a fault mark the instruction has committed its next IP. -/
theorem ipAdvancesByTheEncodedLength : Obligations.IpAdvancesByTheEncodedLength := by
  intro i s t h hi hf
  cases exec_ends h with
  | faulted c len _ _ => cases hf
  | committed u next out h0 h1 _ hnext _ =>
    have hip := ofInt_toNat_of_range h0 h1
    have hlen := hnext hi
    rw [encode_length]
    show (BitVec.ofInt 16 next).toNat = _
    omega

/-- An instruction that goes on to the next address and would end beyond memory faults (R74). -/
theorem exec_faults_at_the_end {i : Instr} {s : State} (hi : transfersControl i = false)
    (hend : 0xFFFF < s.ip.toNat + (encode i).length) : ∃ c len, exec i s = raise s c len ∧ FaultCause i s c := by
  rw [encode_length] at hend
  rcases exec_cases i s with ⟨c, len, e, -, hcause⟩ | ⟨_, next, _, -, -, h1, -, hnext, -⟩
  · exact ⟨c, len, e, hcause⟩
  · have := hnext hi
    omega

/-- A cause other than an access beyond memory and a divide fault is the final IP, in `exec` (R245). -/
theorem FaultCause.ipOutOfBounds_of_no_other {i : Instr} {s : State} {c : FaultCode} (h : FaultCause i s c)
    (hacc : ¬ accessFaults i s) (hdiv : ¬ divideFaultDue i s) : c = .ipOutOfBounds := by
  cases c with
  | ipOutOfBounds => rfl
  | memoryOutOfBounds => exact absurd h hacc
  | divideByZero =>
    obtain ⟨n, q, hops⟩ := h
    exact absurd ⟨n, 0, q, hops, .inl rfl⟩ hdiv
  | divideOverflow =>
    obtain ⟨n, v, q, hops, -, hq⟩ := h
    exact absurd ⟨n, v, q, hops, .inr hq⟩ hdiv
  | unknownOpcode => exact h.elim

/-- Settles O31: the instruction faults, and with no earlier cause the fault is the final IP's. -/
theorem fallingOffTheEndFaults : Obligations.FallingOffTheEndFaults := by
  intro i s hi hend
  obtain ⟨c, len, e, hcause⟩ := exec_faults_at_the_end hi hend
  refine ⟨⟨takeFault s c len, c, e, rfl, rfl, rfl, rfl, rfl, rfl, rfl⟩, fun hacc hdiv => ?_⟩
  obtain rfl := hcause.ipOutOfBounds_of_no_other hacc hdiv
  rw [e]
  exact raise_faultsWith s _ len rfl

/-! ### Memory -/

/-- Settles O32: memory is as before, or it is a store at the instruction's own data access. -/
theorem memoryChangesOnlyWhereItIsStored : Obligations.MemoryChangesOnlyWhereItIsStored := by
  intro i s t h
  cases exec_ends h with
  | faulted c len _ _ => exact ⟨fun _ _ => rfl, fun _ _ _ _ _ => rfl⟩
  | committed u next out _ _ hw _ _ =>
    obtain hmem | ⟨hstores, a, w, v, hacc, -, hmem⟩ := hw.mem
    · have kept (b : Nat) : u.mem.read b = s.mem.read b := by rw [hmem]
      exact ⟨fun _ => kept, fun _ _ _ b _ => kept b⟩
    · refine ⟨fun hno => ?_, fun a' w' hacc' b houtside => ?_⟩
      · cases hno.symm.trans hstores
      · obtain ⟨rfl, rfl⟩ : a = a' ∧ w = w' := by simpa using hacc.symm.trans hacc'
        show u.mem.read b = s.mem.read b
        rw [hmem, read_storeBytes_other s.mem w v houtside]

end Sys2Proof.Machine
end

section
/-! PROOFS. A data access beyond memory faults in every form (spec/20_memory.md R51, R52, R56; spec/30_encoding.md R80).
-/

namespace Sys2Proof.Machine

/-- A read beyond memory answers nothing (R51). -/
theorem State.memRead_of_beyond (s : State) {a : Nat} {w : Width} (h : 0x10000 < a + w.bytes) :
    s.memRead a w = none := by
  rw [s.memRead_eq_ite, if_neg (Nat.not_le.2 h)]

section
variable {s : State} {m : MemOperand} {w : Width} {d : RegId} {len : Nat}

theorem moveToReg_of_beyond (h : 0x10000 < effAddr s m + d.width.bytes) :
    faultsWith .memoryOutOfBounds s (moveToReg d (.mem m) len s) := by
  rw [moveToReg, source_mem, s.memRead_of_beyond h]
  exact raise_faultsWith s _ len rfl

theorem alu2_of_beyond {op : AluOp} (h : 0x10000 < effAddr s m + d.width.bytes) :
    faultsWith .memoryOutOfBounds s (alu2 op d (.mem m) len s) := by
  rw [alu2, source_mem, s.memRead_of_beyond h]
  exact raise_faultsWith s _ len rfl

theorem moveToMem_of_beyond {v : Int} (h : 0x10000 < effAddr s m + w.bytes) :
    faultsWith .memoryOutOfBounds s (moveToMem m w v len s) := by
  rw [moveToMem, s.memWrite_of_beyond v h]
  exact raise_faultsWith s _ len rfl

theorem modifyByte_of_beyond {f : Nat → Int} {flagged : Bool} (h : 0x10000 < effAddr s m + Width.byte.bytes) :
    faultsWith .memoryOutOfBounds s (modifyByte m f flagged len s) := by
  rw [modifyByte, s.memRead_of_beyond h]
  exact raise_faultsWith s _ len rfl

theorem multiplyMem_of_beyond (h : 0x10000 < effAddr s m + Width.byte.bytes) :
    faultsWith .memoryOutOfBounds s (multiplyMem m len s) := by
  rw [multiplyMem, s.memRead_of_beyond h]
  exact raise_faultsWith s _ len rfl

theorem divideMem_of_beyond (h : 0x10000 < effAddr s m + Width.byte.bytes) :
    faultsWith .memoryOutOfBounds s (divideMem m len s) := by
  rw [divideMem, s.memRead_of_beyond h]
  exact raise_faultsWith s _ len rfl

end

/-- Settles O33: each form with a data access calls one of the shared operations at its effective address and width. -/
theorem accessBeyondMemoryFaults : Obligations.AccessBeyondMemoryFaults := by
  intro i s a w hacc hbeyond
  cases i with
  | movRM d addr | movRX d idx base =>
    cases hacc
    exact moveToReg_of_beyond hbeyond
  | addRM d addr | subRM d addr | cmpRM d addr | andRM d addr | orRM d addr | xorRM d addr | addRX d idx base
  | subRX d idx base | cmpRX d idx base | andRX d idx base | orRX d idx base | xorRX d idx base =>
    cases hacc
    exact alu2_of_beyond hbeyond
  | movMR r addr | movXR r idx base | movMI addr imm | movXI idx base imm =>
    cases hacc
    exact moveToMem_of_beyond hbeyond
  | incM addr | decM addr | notM addr | incX idx base | decX idx base | notX idx base =>
    cases hacc
    exact modifyByte_of_beyond hbeyond
  | mulM addr | mulX idx base =>
    cases hacc
    exact multiplyMem_of_beyond hbeyond
  | divM addr | divX idx base =>
    cases hacc
    exact divideMem_of_beyond hbeyond
  | _ => cases hacc

end Sys2Proof.Machine
end

section
/-! PROOFS. The dead state (spec/10_state.md R26, R33): every operation commutes with `withDead`. -/

namespace Sys2Proof.Machine

/-- A division is decided by its divisor, then by its quotient (R182). -/
theorem divide_eq_ite (w : Width) (v len : Nat) (s : State) :
    divide w v len s =
      if v = 0 then raise s .divideByZero len
      else if 2 ^ w.bits ≤ dividend w s / v then raise s .divideOverflow len
      else complete s (divWritten w v s) len := by
  rcases divide_cases w v len s with ⟨h0, e⟩ | ⟨h0, hq, e⟩ | ⟨h0, hq, e⟩
  · rw [e, if_pos h0]
  · rw [e, if_neg h0, if_pos hq]
  · rw [e, if_neg h0, if_neg (Nat.not_le.2 hq)]

section
variable (g : SegRegs) (f : Flags) (s t : State)

/-! ### The shared operations -/

theorem commit_withDead (next : Int) (out : Option (List Byte)) :
    commit (withDead g f s) (withDead g f t) next out = mapNext (withDead g f) (commit s t next out) := by
  unfold commit
  split
  · rfl
  · rfl

theorem complete_withDead (len : Nat) :
    complete (withDead g f s) (withDead g f t) len = mapNext (withDead g f) (complete s t len) :=
  commit_withDead g f s t _ none

theorem sourceValue_withDead (w : Width) (src : Source) :
    sourceValue (withDead g f s) w src = sourceValue s w src := by
  cases src with
  | reg r => rfl
  | imm v => rfl
  | mem m => cases m <;> rfl

theorem effAddr_withDead (m : MemOperand) : effAddr (withDead g f s) m = effAddr s m := by
  cases m <;> rfl

theorem memRead_withDead (a : Nat) (w : Width) : (withDead g f s).memRead a w = s.memRead a w := rfl

theorem memWrite_withDead (a : Nat) (w : Width) (v : Int) :
    (withDead g f s).memWrite a w v = (s.memWrite a w v).map (withDead g f) := by
  unfold State.memWrite
  split
  · rfl
  · rfl

theorem moveToReg_withDead (d : RegId) (src : Source) (len : Nat) :
    moveToReg d src len (withDead g f s) = mapNext (withDead g f) (moveToReg d src len s) := by
  unfold moveToReg
  rw [sourceValue_withDead]
  cases sourceValue s d.width src with
  | none => rfl
  | some v => exact complete_withDead g f s (s.setReg d v) len

theorem moveToMem_withDead (m : MemOperand) (w : Width) (v : Int) (len : Nat) :
    moveToMem m w v len (withDead g f s) = mapNext (withDead g f) (moveToMem m w v len s) := by
  unfold moveToMem
  rw [effAddr_withDead, memWrite_withDead]
  cases s.memWrite (effAddr s m) w v with
  | none => rfl
  | some t => exact complete_withDead g f s t len

theorem aluWritten_withDead (op : AluOp) (d : RegId) (raw : Int) :
    aluWritten op d raw (withDead g f s) = withDead g f (aluWritten op d raw s) := by
  unfold aluWritten
  cases aluWrites op <;> rfl

theorem alu2_withDead (op : AluOp) (d : RegId) (src : Source) (len : Nat) :
    alu2 op d src len (withDead g f s) = mapNext (withDead g f) (alu2 op d src len s) := by
  rcases alu2_cases op d src len s with ⟨hn, e⟩ | ⟨v, hv, e⟩
  · rw [e, alu2, sourceValue_withDead, hn]
    rfl
  · rw [e, ← complete_withDead, ← aluWritten_withDead, alu2, sourceValue_withDead, hv]
    rfl

theorem modifyByte_withDead (m : MemOperand) (v : Nat → Int) (flagged : Bool) (len : Nat) :
    modifyByte m v flagged len (withDead g f s) = mapNext (withDead g f) (modifyByte m v flagged len s) := by
  unfold modifyByte
  rw [effAddr_withDead, memRead_withDead]
  cases s.memRead (effAddr s m) .byte with
  | none => rfl
  | some b =>
    simp only [memWrite_withDead]
    cases s.memWrite (effAddr s m) .byte (v b) with
    | none => rfl
    | some t =>
      cases flagged with
      | false => exact complete_withDead g f s t len
      | true => exact complete_withDead g f s (t.setFlags (v b) 8) len

theorem notReg_withDead (r : RegId) (len : Nat) :
    notReg r len (withDead g f s) = mapNext (withDead g f) (notReg r len s) :=
  complete_withDead g f s (s.setReg r (complement r.width (s.reg r))) len

theorem mulWritten_withDead (w : Width) (m : Nat) :
    mulWritten w m (withDead g f s) = withDead g f (mulWritten w m s) := by
  cases w <;> rfl

theorem multiply_withDead (w : Width) (m len : Nat) :
    multiply w m len (withDead g f s) = mapNext (withDead g f) (multiply w m len s) := by
  rw [multiply_eq, multiply_eq, mulWritten_withDead, complete_withDead]

theorem multiplyMem_withDead (m : MemOperand) (len : Nat) :
    multiplyMem m len (withDead g f s) = mapNext (withDead g f) (multiplyMem m len s) := by
  unfold multiplyMem
  rw [effAddr_withDead, memRead_withDead]
  cases s.memRead (effAddr s m) .byte with
  | none => rfl
  | some v => exact multiply_withDead g f s .byte v len

theorem dividend_withDead (w : Width) : dividend w (withDead g f s) = dividend w s := by
  cases w <;> rfl

theorem drawDivFlags_withDead (a b : RegId) (u v : Int) :
    (((withDead g f s).setReg a u).setReg b v).drawDivFlags =
      withDead g f ((s.setReg a u).setReg b v).drawDivFlags := rfl

theorem divWritten_withDead (w : Width) (v : Nat) :
    divWritten w v (withDead g f s) = withDead g f (divWritten w v s) := by
  cases w with
  | byte =>
    rw [divWritten, dividend_withDead]
    exact drawDivFlags_withDead g f s .al .ah _ _
  | word =>
    rw [divWritten, dividend_withDead]
    exact drawDivFlags_withDead g f s .ax .dx _ _

/-- With equal draws: `withDead` keeps the count of draws (notes/assumptions/1.md, 2.md). -/
theorem divide_withDead (w : Width) (v len : Nat) :
    divide w v len (withDead g f s) = mapNext (withDead g f) (divide w v len s) := by
  rw [divide_eq_ite, divide_eq_ite, dividend_withDead, divWritten_withDead]
  split
  · rfl
  · split
    · rfl
    · exact complete_withDead g f s (divWritten w v s) len

theorem divideMem_withDead (m : MemOperand) (len : Nat) :
    divideMem m len (withDead g f s) = mapNext (withDead g f) (divideMem m len s) := by
  unfold divideMem
  rw [effAddr_withDead, memRead_withDead]
  cases s.memRead (effAddr s m) .byte with
  | none => rfl
  | some v => exact divide_withDead g f s .byte v len

theorem jumpRel_withDead (taken : Bool) (len : Nat) (disp : Int) :
    jumpRel (withDead g f s) (withDead g f t) taken len disp = mapNext (withDead g f) (jumpRel s t taken len disp) :=
  commit_withDead g f s t _ none

/-- The conditions of the jumps read ZF, SF, OF and CF only (R203). -/
theorem jumpIf_withDead (c : Cond) (disp : Byte) (len : Nat) :
    jumpIf c disp len (withDead g f s) = mapNext (withDead g f) (jumpIf c disp len s) := by
  have hcond : condHolds (withDead g f s).flags c = condHolds s.flags c := by cases c <;> rfl
  rw [jumpIf, hcond]
  exact jumpRel_withDead g f s s (condHolds s.flags c) len disp.toInt

theorem emitString_withDead (len : Nat) :
    emitString len (withDead g f s) = mapNext (withDead g f) (emitString len s) := by
  have hstr : dollarString (withDead g f s).mem ((withDead g f s).reg .dx) (0x10000 - (withDead g f s).reg .dx) =
      dollarString s.mem (s.reg .dx) (0x10000 - s.reg .dx) := rfl
  unfold emitString
  rw [hstr]
  cases dollarString s.mem (s.reg .dx) (0x10000 - s.reg .dx) with
  | none => rfl
  | some str => exact commit_withDead g f s s ((s.ip.toNat : Int) + len) (some str)

theorem serviceCall_withDead (len : Nat) :
    serviceCall len (withDead g f s) = mapNext (withDead g f) (serviceCall len s) := by
  have hah : (withDead g f s).reg .ah = s.reg .ah := rfl
  unfold serviceCall
  rw [hah]
  split
  · exact commit_withDead g f s s ((s.ip.toNat : Int) + len) (some [lowByte s.regs.dx])
  · split
    · exact emitString_withDead g f s len
    · exact complete_withDead g f s s len

theorem execInt_withDead (n : Byte) : execInt n (withDead g f s) = mapNext (withDead g f) (execInt n s) := by
  unfold execInt
  split
  · exact serviceCall_withDead g f s (formatLength .I8)
  · exact complete_withDead g f s s (formatLength .I8)

/-! ### Instructions and steps -/

theorem exec_withDead (i : Instr) : exec i (withDead g f s) = mapNext (withDead g f) (exec i s) := by
  cases i with
  | movRR d r => exact moveToReg_withDead g f s d (.reg r) _
  | movRI d imm => exact moveToReg_withDead g f s d (.imm imm) _
  | movRM d addr => exact moveToReg_withDead g f s d (.mem (.direct addr)) _
  | movRX d idx base => exact moveToReg_withDead g f s d (.mem (.indexed idx base)) _
  | movMR | movXR | movMI | movXI => exact moveToMem_withDead g f s _ _ _ _
  | addRR d r | subRR d r | cmpRR d r | andRR d r | orRR d r | xorRR d r =>
    exact alu2_withDead g f s _ d (.reg r) _
  | addRI d imm | subRI d imm | cmpRI d imm | andRI d imm | orRI d imm | xorRI d imm =>
    exact alu2_withDead g f s _ d (.imm imm) _
  | addRM d addr | subRM d addr | cmpRM d addr | andRM d addr | orRM d addr | xorRM d addr =>
    exact alu2_withDead g f s _ d (.mem (.direct addr)) _
  | addRX d idx base | subRX d idx base | cmpRX d idx base | andRX d idx base | orRX d idx base
  | xorRX d idx base =>
    exact alu2_withDead g f s _ d (.mem (.indexed idx base)) _
  | incR r | decR r => exact alu2_withDead g f s _ r (.imm 1#16) _
  | incM | incX | decM | decX | notM | notX => exact modifyByte_withDead g f s _ _ _ _
  | notR r => exact notReg_withDead g f s r _
  | mulR r => exact multiply_withDead g f s r.width (s.reg r) _
  | mulM | mulX => exact multiplyMem_withDead g f s _ _
  | divR r => exact divide_withDead g f s r.width (s.reg r) _
  | divM | divX => exact divideMem_withDead g f s _ _
  | jmp disp => exact jumpRel_withDead g f s s true _ _
  | je | jne | jl | jle | jg | jge | jb | jae | jbe | ja => exact jumpIf_withDead g f s _ _ _
  | loop disp => exact jumpRel_withDead g f s (s.setReg .cx (s.regs.cx - 1).toNat) _ _ _
  | nop | ret => exact complete_withDead g f s s _
  | hlt => exact complete_withDead g f s { s with halted := true } _
  | int n => exact execInt_withDead g f s n

theorem undecodable_withDead (e : DecodeError) :
    undecodable e (withDead g f s) = mapNext (withDead g f) (undecodable e s) := by
  have hpolicy : (withDead g f s).config.unknownOpcode = s.config.unknownOpcode := rfl
  cases e with
  | truncated => rfl
  | badRegId b => rfl
  | unassigned b =>
    cases hp : s.config.unknownOpcode with
    | fault =>
      rw [undecodable_unassigned_fault b hp, undecodable_unassigned_fault b (hpolicy.trans hp)]
      rfl
    | nop =>
      rw [undecodable_unassigned_nop b hp, undecodable_unassigned_nop b (hpolicy.trans hp)]
      exact complete_withDead g f s s 1

theorem step_withDead : step (withDead g f s) = mapNext (withDead g f) (step s) := by
  have hhalted : (withDead g f s).halted = s.halted := rfl
  have hfault : (withDead g f s).fault = s.fault := rfl
  have hfetch : fetchInstr (withDead g f s) = fetchInstr s := rfl
  unfold step
  rw [hhalted, hfault, hfetch]
  cases s.halted with
  | true => rfl
  | false =>
    cases s.fault with
    | some c => rfl
    | none =>
      cases fetchInstr s with
      | ok i => exact exec_withDead g f s i
      | error e => exact undecodable_withDead g f s e

end

/-- Settles O24: a step commutes with other contents of the dead state. -/
theorem deadStateIsNeverReadOrWritten : Obligations.DeadStateIsNeverReadOrWritten :=
  ⟨fun s g f => step_withDead g f s, rfl, rfl, rfl, rfl, rfl, rfl⟩

end Sys2Proof.Machine
end

section
/-! PROOFS. Two-operand instructions with a register destination, and the one-operand forms on a register
(spec/40_data_transfer.md R110 to R114, spec/41_arith_logic.md R130 to R159). -/

namespace Sys2Proof.Machine

/-! ### An instruction that completes -/

/-- Below the top of memory an instruction completes with its writes, and goes on to the next address (R74). -/
theorem completes_complete {s u : State} {len : Nat} {post : State → Prop} (hip : s.ip.toNat + len ≤ 0xFFFF)
    (hmarks : marksKept s u)
    (hpost : post { u with ip := BitVec.ofNat 16 (s.ip.toNat + len), output := none }) :
    completes len s (complete s u len) post := by
  refine ⟨_, complete_of_range hip, ?ip, rfl, hmarks, hpost⟩
  case ip =>
    show (BitVec.ofNat 16 (s.ip.toNat + len)).toNat = _
    rw [BitVec.toNat_ofNat]
    omega

/-! ### The four forms with a register destination -/

/-- The four forms are one operation on the destination, the source and the form's length (R75, R82). -/
structure RegisterMeaning (rr : RegId → RegId → Instr) (ri rm : RegId → Word → Instr)
    (rx : RegId → RegId → Word → Instr) (meaning : RegId → Source → Nat → State → Result) : Prop where
  register : ∀ d r s, exec (rr d r) s = meaning d (.reg r) 2 s
  immediate : ∀ d imm s, exec (ri d imm) s = meaning d (.imm imm) 4 s
  direct : ∀ d addr s, exec (rm d addr) s = meaning d (.mem (.direct addr)) 4 s
  indexed : ∀ d idx base s, exec (rx d idx base) s = meaning d (.mem (.indexed idx base)) 5 s

theorem valueAt_lt (m : Memory) (a : Nat) (w : Width) : valueAt m a w < 2 ^ w.bits := by
  have h0 := (m.read a).isLt
  have h1 := (m.read (a + 1)).isLt
  cases w <;> simp only [valueAt, Width.bits] <;> omega

theorem source_mem_of_inBounds (s : State) {w : Width} {m : MemOperand} (h : effAddr s m + w.bytes ≤ 0x10000) :
    sourceValue s w (.mem m) = some (valueAt s.mem (effAddr s m) w) := by
  rw [source_mem, s.memRead_of_inBounds h]

/-- What the operation leaves of each source value in range, its four forms leave of theirs. -/
theorem RegisterMeaning.registerForms {rr ri rm rx meaning} {post : State → RegId → Nat → State → Prop}
    (hm : RegisterMeaning rr ri rm rx meaning)
    (h : ∀ s d src len v, s.ip.toNat + len ≤ 0xFFFF → sourceValue s d.width src = some v → v < 2 ^ d.width.bits →
      completes len s (meaning d src len s) (post s d v)) : registerForms rr ri rm rx post := by
  refine fun s d => ⟨fun r hip => ?rr, fun imm hip => ?ri, fun addr hip hin => ?rm, fun idx base hip hin => ?rx⟩
  case rr =>
    rw [hm.register]
    exact h s d _ 2 _ hip (source_reg s d.width r) (Nat.mod_lt _ (Nat.two_pow_pos _))
  case ri =>
    rw [hm.immediate]
    exact h s d _ 4 _ hip (source_imm s d.width imm) (Nat.mod_lt _ (Nat.two_pow_pos _))
  case rm =>
    rw [hm.direct]
    exact h s d _ 4 _ hip (source_mem_of_inBounds s (m := .direct addr) hin) (valueAt_lt _ _ _)
  case rx =>
    rw [hm.indexed]
    exact h s d _ 5 _ hip (source_mem_of_inBounds s (m := .indexed idx base) hin) (valueAt_lt _ _ _)

/-! ### MOV -/

/-- A register written with a number in range reads as that number (R23). -/
theorem State.reg_setReg_natCast (s : State) {r : RegId} {n : Nat} (h : n < 2 ^ r.width.bits) :
    (s.setReg r (n : Int)).reg r = n := by
  have hsame := s.reg_setReg_same r (n : Int)
  rw [← Int.natCast_emod, Nat.mod_eq_of_lt h] at hsame
  exact_mod_cast hsame

/-- Settles O34: the source value is in range for the destination. -/
theorem movToRegisterResult : Obligations.MovToRegisterResult := by
  have meaning : RegisterMeaning .movRR .movRI .movRM .movRX moveToReg :=
    ⟨fun _ _ _ => rfl, fun _ _ _ => rfl, fun _ _ _ => rfl, fun _ _ _ _ => rfl⟩
  refine meaning.registerForms fun s d src len v hip hv hlt => ?_
  rw [moveToReg, hv]
  exact completes_complete hip ⟨rfl, rfl, rfl, rfl⟩
    ⟨s.reg_setReg_natCast hlt, s.setReg_regsKeptBut d v, rfl, fun _ => rfl⟩

/-! ### The two-operand operations -/

/-- `SetFlags` after writes that keep the flags: the flags it does not write are those of the state before. -/
theorem flagsOfRaw_setFlags {s u : State} (raw : Int) {bits : Nat} (hb : 0 < bits) (hu : u.flags = s.flags) :
    flagsOfRaw s (u.setFlags raw bits) raw bits := by
  have h := setFlags_flagsOfRaw u raw bits hb
  rw [flagsOfRaw, inertFlagsKept, hu] at h
  exact h

/-- The flags among what a two-operand instruction leaves. -/
theorem regResult.flags {d : RegId} {raw : Int} {s t : State} (h : regResult d raw s t) :
    flagsOfRaw s t raw d.width.bits := by
  obtain ⟨-, -, hflags, -⟩ := h
  exact hflags

theorem aluWritten_of_writes {op : AluOp} (hw : aluWrites op = true) (d : RegId) (raw : Int) (s : State) :
    aluWritten op d raw s = (s.setReg d raw).setFlags raw d.width.bits := by
  rw [aluWritten, if_pos hw]

/-- The writes of an operation that writes its destination (R131). -/
theorem regResult_aluWritten {op : AluOp} (hw : aluWrites op = true) (d : RegId) (raw : Int) (s : State) :
    regResult d raw s (aluWritten op d raw s) := by
  rw [aluWritten_of_writes hw]
  refine ⟨?value, s.setReg_regsKeptBut d raw, flagsOfRaw_setFlags raw d.width.bits_pos rfl, fun _ => rfl⟩
  case value => exact_mod_cast s.reg_setReg_same d raw

/-- A two-operand operation whose source can be read completes with its writes (R131). -/
theorem completes_alu2 {op : AluOp} {d : RegId} {src : Source} {len v : Nat} {s : State} {post : State → Prop}
    (hip : s.ip.toNat + len ≤ 0xFFFF) (hv : sourceValue s d.width src = some v)
    (hpost : post { aluWritten op d (aluRaw op (s.reg d) v) s with
      ip := BitVec.ofNat 16 (s.ip.toNat + len), output := none }) :
    completes len s (alu2 op d src len s) post := by
  have hmarks : marksKept s (aluWritten op d (aluRaw op (s.reg d) v) s) := by
    rw [aluWritten_regs_flags]
    exact ⟨rfl, rfl, rfl, rfl⟩
  rw [alu2, hv]
  exact completes_complete hip hmarks hpost

/-- Settles O37: the raw result of ADD is the unbounded sum. -/
theorem addResult : Obligations.AddResult := by
  have meaning : RegisterMeaning .addRR .addRI .addRM .addRX (alu2 .add) :=
    ⟨fun _ _ _ => rfl, fun _ _ _ => rfl, fun _ _ _ => rfl, fun _ _ _ _ => rfl⟩
  exact meaning.registerForms fun s d src len v hip hv _ => completes_alu2 hip hv (regResult_aluWritten rfl d _ s)

/-- Settles O38: the raw result of SUB is the unbounded difference. -/
theorem subResult : Obligations.SubResult := by
  have meaning : RegisterMeaning .subRR .subRI .subRM .subRX (alu2 .sub) :=
    ⟨fun _ _ _ => rfl, fun _ _ _ => rfl, fun _ _ _ => rfl, fun _ _ _ _ => rfl⟩
  exact meaning.registerForms fun s d src len v hip hv _ => completes_alu2 hip hv (regResult_aluWritten rfl d _ s)

/-- Settles O39: CMP writes no register, so its writes are those of `SetFlags`. -/
theorem cmpResult : Obligations.CmpResult := by
  have meaning : RegisterMeaning .cmpRR .cmpRI .cmpRM .cmpRX (alu2 .cmp) :=
    ⟨fun _ _ _ => rfl, fun _ _ _ => rfl, fun _ _ _ => rfl, fun _ _ _ _ => rfl⟩
  exact meaning.registerForms fun s d src len v hip hv _ =>
    completes_alu2 hip hv ⟨rfl, flagsOfRaw_setFlags _ d.width.bits_pos rfl, fun _ => rfl⟩

/-- A natural number in range for the width clears CF (R31). -/
theorem cf_of_flagsOfRaw {s t : State} {n bits : Nat} (h : flagsOfRaw s t n bits) (hn : n < 2 ^ bits) :
    t.flags.cf = false := by
  obtain ⟨-, -, hcf, -⟩ := h
  have hle : (n : Int) < 2 ^ bits := by exact_mod_cast hn
  rw [hcf, decide_eq_false_iff_not]
  omega

/-- The three bitwise operations leave their result, which is in range, and so clear CF (R144 to R155). -/
theorem registerForms_bitwise {rr ri rm rx} {op : AluOp} (bitop : Nat → Nat → Nat)
    (meaning : RegisterMeaning rr ri rm rx (alu2 op)) (hw : aluWrites op = true)
    (hraw : ∀ x v, aluRaw op x v = (bitop x v : Nat))
    (hlt : ∀ {x v bits : Nat}, x < 2 ^ bits → v < 2 ^ bits → bitop x v < 2 ^ bits) :
    registerForms rr ri rm rx fun s d v t =>
      regResult d ((bitop (s.reg d) v : Nat) : Int) s t ∧ t.flags.cf = false := by
  refine meaning.registerForms fun s d src len v hip hv hvlt => completes_alu2 hip hv ?_
  rw [hraw]
  have hres := regResult_aluWritten hw d ((bitop (s.reg d) v : Nat) : Int) s
  exact ⟨hres, cf_of_flagsOfRaw hres.flags (hlt (s.reg_lt d) hvlt)⟩

/-- Settles O40, an instance of `registerForms_bitwise`. -/
theorem andResult : Obligations.AndResult :=
  registerForms_bitwise (· &&& ·)
    ⟨fun _ _ _ => rfl, fun _ _ _ => rfl, fun _ _ _ => rfl, fun _ _ _ _ => rfl⟩ rfl (fun _ _ => rfl)
    fun _ hv => Nat.and_lt_two_pow _ hv

/-- Settles O41, an instance of `registerForms_bitwise`. -/
theorem orResult : Obligations.OrResult :=
  registerForms_bitwise (· ||| ·)
    ⟨fun _ _ _ => rfl, fun _ _ _ => rfl, fun _ _ _ => rfl, fun _ _ _ _ => rfl⟩ rfl (fun _ _ => rfl)
    fun hx hv => Nat.or_lt_two_pow hx hv

/-- Settles O42, an instance of `registerForms_bitwise`. -/
theorem xorResult : Obligations.XorResult :=
  registerForms_bitwise (· ^^^ ·)
    ⟨fun _ _ _ => rfl, fun _ _ _ => rfl, fun _ _ _ => rfl, fun _ _ _ _ => rfl⟩ rfl (fun _ _ => rfl)
    fun hx hv => Nat.xor_lt_two_pow hx hv

/-! ### One operand, in a register -/

/-- The immediate 1 of INC and DEC is 1 at both widths (R156). -/
theorem source_one (s : State) (w : Width) : sourceValue s w (.imm 1#16) = some 1 := by
  rw [source_imm]
  cases w <;> rfl

/-- CF after INC: only all ones carries (R157). -/
theorem cf_inc_iff {s t : State} {r : RegId} (h : flagsOfRaw s t ((s.reg r : Int) + 1) r.width.bits) :
    t.flags.cf = true ↔ s.reg r = 2 ^ r.width.bits - 1 := by
  obtain ⟨-, -, hcf, -⟩ := h
  have hlt := s.reg_lt r
  have hcast : ((2 ^ r.width.bits : Nat) : Int) = 2 ^ r.width.bits := by push_cast; rfl
  rw [hcf, decide_eq_true_iff, ← hcast]
  omega

/-- CF after DEC: only zero borrows (R158). -/
theorem cf_dec_iff {s t : State} {r : RegId} (h : flagsOfRaw s t ((s.reg r : Int) - 1) r.width.bits) :
    t.flags.cf = true ↔ s.reg r = 0 := by
  obtain ⟨-, -, hcf, -⟩ := h
  have hlt := s.reg_lt r
  have hcast : ((2 ^ r.width.bits : Nat) : Int) = 2 ^ r.width.bits := by push_cast; rfl
  rw [hcf, decide_eq_true_iff, ← hcast]
  omega

/-- Settles O43: ADD and SUB with immediate 1. -/
theorem incDecRegisterResult : Obligations.IncDecRegisterResult := by
  refine fun s r hip => ⟨?inc, ?dec⟩
  case inc =>
    have hres := regResult_aluWritten (op := .add) rfl r ((s.reg r : Int) + 1) s
    exact completes_alu2 (op := .add) hip (source_one s r.width) ⟨hres, cf_inc_iff hres.flags⟩
  case dec =>
    have hres := regResult_aluWritten (op := .sub) rfl r ((s.reg r : Int) - 1) s
    exact completes_alu2 (op := .sub) hip (source_one s r.width) ⟨hres, cf_dec_iff hres.flags⟩

/-- Settles O44: the complement is 2^w - 1 less the old value, and that is in range. -/
theorem notRegisterResult : Obligations.NotRegisterResult := by
  intro s r hip
  have hcompl := complement_eq r.width (s.reg r) (s.reg_lt r)
  have hlt : complement r.width (s.reg r) < 2 ^ r.width.bits := by
    have := Nat.two_pow_pos r.width.bits
    omega
  exact completes_complete hip ⟨rfl, rfl, rfl, rfl⟩
    ⟨(s.reg_setReg_natCast hlt).trans hcompl, s.setReg_regsKeptBut r _, rfl, fun _ => rfl⟩

end Sys2Proof.Machine
end

section
/-! PROOFS. Stores: MOV to memory, and INC, DEC and NOT of a byte of memory (spec/40_data_transfer.md R115 to R118,
spec/41_arith_logic.md R160 to R165). -/

namespace Sys2Proof.Machine

/-! ### What a store leaves -/

/-- The value stored is read back truncated to the width, where memory was in canonical form (R52). -/
theorem valueAt_storeBytes {m : Memory} {a : Nat} {w : Width} (v : Int) (hb : inBounds a w = true)
    (hwf : m.wf = true) : (valueAt (storeBytes m a w v) a w : Int) = v % 2 ^ w.bits := by
  have hlow := read_storeBytes_low v hb hwf
  cases w with
  | byte => exact hlow
  | word =>
    have hhigh := read_storeBytes_high v hb hwf
    simp only [valueAt, Width.bits]
    omega

/-- A store inside memory leaves its value, every other byte and the registers (R52). -/
theorem storeResult_storeBytes (s : State) {a : Nat} {w : Width} (v : Int) (hin : a + w.bytes ≤ 0x10000) :
    storeResult a w v s { s with mem := storeBytes s.mem a w v } :=
  ⟨valueAt_storeBytes v ((inBounds_iff a w).2 hin), memKeptBut_storeBytes s a w v, rfl⟩

/-! ### MOV to memory -/

/-- An address field alone lies in memory. -/
theorem effAddr_direct_le (s : State) (addr : Word) : effAddr s (.direct addr) ≤ 0xFFFF :=
  Nat.le_of_lt_succ addr.isLt

/-- MOV to memory completes where it ends below 0x10000 and its store lies in memory (R110). -/
theorem completes_moveToMem {s : State} {m : MemOperand} {w : Width} {len : Nat} (v : Int)
    (hip : s.ip.toNat + len ≤ 0xFFFF) (hin : effAddr s m + w.bytes ≤ 0x10000) :
    completes len s (moveToMem m w v len s) fun t => storeResult (effAddr s m) w v s t ∧ t.flags = s.flags := by
  rw [moveToMem, s.memWrite_of_inBounds v ((inBounds_iff _ _).2 hin)]
  exact completes_complete hip ⟨rfl, rfl, rfl, rfl⟩ ⟨storeResult_storeBytes s v hin, rfl⟩

/-- Settles O35: each form is a store at its effective address; an address field alone always lies in memory. -/
theorem movToMemoryResult : Obligations.MovToMemoryResult := by
  intro s
  refine ⟨fun r addr hip hin => ?mr, fun r idx base hip hin => ?xr, fun addr imm hip => ?mi,
    fun idx base imm hip hin => ?xi⟩
  case mr => exact completes_moveToMem (m := .direct addr) _ hip hin
  case xr => exact completes_moveToMem (m := .indexed idx base) _ hip hin
  case mi => exact completes_moveToMem (m := .direct addr) _ hip (Nat.succ_le_succ (effAddr_direct_le s addr))
  case xi => exact completes_moveToMem (m := .indexed idx base) _ hip (Nat.succ_le_succ hin)

/-! ### One byte of memory -/

/-- The two forms on a byte of memory are one operation on the operand and the form's length (R56, R75). -/
structure ByteMeaning (direct : Word → Instr) (indexed : RegId → Word → Instr)
    (meaning : MemOperand → Nat → State → Result) : Prop where
  direct : ∀ addr s, exec (direct addr) s = meaning (.direct addr) 3 s
  indexed : ∀ idx base s, exec (indexed idx base) s = meaning (.indexed idx base) 4 s

/-- What the operation leaves at each effective address in memory, its two forms leave at theirs. -/
theorem ByteMeaning.byteForms {direct indexed meaning} {post : State → Nat → State → Prop}
    (hm : ByteMeaning direct indexed meaning)
    (h : ∀ s m len, s.ip.toNat + len ≤ 0xFFFF → effAddr s m ≤ 0xFFFF →
      completes len s (meaning m len s) (post s (effAddr s m))) : byteForms direct indexed post := by
  refine fun s => ⟨fun addr hip => ?direct, fun idx base hip hin => ?indexed⟩
  case direct =>
    rw [hm.direct]
    exact h s (.direct addr) 3 hip (effAddr_direct_le s addr)
  case indexed =>
    rw [hm.indexed]
    exact h s (.indexed idx base) 4 hip hin

/-- A read-modify-write of a byte in memory completes with its writes (R56). -/
theorem completes_modifyByte {s : State} {m : MemOperand} {f : Nat → Int} {flagged : Bool} {len : Nat}
    {post : State → Prop} (hip : s.ip.toNat + len ≤ 0xFFFF) (hin : effAddr s m ≤ 0xFFFF)
    (hpost : post { byteWritten (effAddr s m) (f (s.mem.read (effAddr s m)).toNat) flagged s with
      ip := BitVec.ofNat 16 (s.ip.toNat + len), output := none }) :
    completes len s (modifyByte m f flagged len s) post := by
  rcases modifyByte_cases m f flagged len s with ⟨hout, -⟩ | ⟨-, e⟩
  · omega
  · rw [e]
    exact completes_complete hip (by cases flagged <;> exact ⟨rfl, rfl, rfl, rfl⟩) hpost

/-- The byte among the writes of a read-modify-write (R156). -/
theorem storeResult_byteWritten (s : State) {a : Nat} (v : Int) (flagged : Bool) (ha : a ≤ 0xFFFF) :
    storeResult a .byte v s (byteWritten a v flagged s) := by
  have hstore := storeResult_storeBytes s (w := .byte) v (Nat.succ_le_succ ha)
  cases flagged <;> exact hstore

/-- The writes of a flag-setting read-modify-write: the byte and the flags of its raw result (R156). -/
theorem byteWritten_flagged (s : State) {a : Nat} (v : Int) (ha : a ≤ 0xFFFF) :
    storeResult a .byte v s (byteWritten a v true s) ∧ flagsOfRaw s (byteWritten a v true s) v 8 :=
  ⟨storeResult_byteWritten s v true ha, flagsOfRaw_setFlags v (by decide) rfl⟩

/-- Settles O45: the raw result of the byte is one more. -/
theorem incMemoryResult : Obligations.IncMemoryResult := by
  have meaning : ByteMeaning .incM .incX (modifyByte · (fun v => (v : Int) + 1) true) :=
    ⟨fun _ _ => rfl, fun _ _ _ => rfl⟩
  exact meaning.byteForms fun s m len hip hin => completes_modifyByte hip hin (byteWritten_flagged s _ hin)

/-- Settles O46: the raw result of the byte is one less, -1 for 0. -/
theorem decMemoryResult : Obligations.DecMemoryResult := by
  have meaning : ByteMeaning .decM .decX (modifyByte · (fun v => (v : Int) - 1) true) :=
    ⟨fun _ _ => rfl, fun _ _ _ => rfl⟩
  exact meaning.byteForms fun s m len hip hin => completes_modifyByte hip hin (byteWritten_flagged s _ hin)

/-- The complement of a byte, over the integers (R156). -/
theorem complement_byte (b : Byte) : (complement .byte b.toNat : Int) = 255 - b.toNat := by
  have hlt := b.isLt
  rw [complement_eq .byte b.toNat hlt]
  simp only [Width.bits]
  omega

/-- Settles O47: the complement of the byte is 255 less it. -/
theorem notMemoryResult : Obligations.NotMemoryResult := by
  have meaning : ByteMeaning .notM .notX (modifyByte · (fun v => (complement .byte v : Int)) false) :=
    ⟨fun _ _ => rfl, fun _ _ _ => rfl⟩
  refine meaning.byteForms fun s m len hip hin => completes_modifyByte hip hin ?_
  simp only [complement_byte]
  exact ⟨storeResult_byteWritten s _ false hin, rfl⟩

end Sys2Proof.Machine
end

section
/-! PROOFS. Multiply and divide (spec/42_mul_div.md R180 to R186). -/

namespace Sys2Proof.Machine

/-- The frame of two register writes. -/
theorem State.setReg_setReg_regsKeptBut (s : State) {ds : List RegId} {a b : RegId} (u v : Int) (ha : a ∈ ds)
    (hb : b ∈ ds) : regsKeptBut ds s ((s.setReg a u).setReg b v) := by
  intro q hq
  rw [State.reg_setReg_other _ b q v (hq b hb), State.reg_setReg_other s a q u (hq a ha)]

/-! ### MUL -/

theorem mulFlagBits_pos (c : Config) (w : Width) : 0 < mulFlagBits c w := by
  have := w.bits_pos
  unfold mulFlagBits
  split <;> omega

/-- The flags of MUL are those of the product at the width that the machine's parameter chooses (R181). -/
theorem mulFlags_setFlags {s u : State} (w : Width) (p : Nat) (hu : u.flags = s.flags) :
    mulFlags w p s (u.setFlags p (mulFlagBits s.config w)) := by
  have h := flagsOfRaw_setFlags (p : Int) (mulFlagBits_pos s.config w) hu
  refine ⟨fun hc => ?operand, fun hc => ?product⟩
  case operand =>
    have hbits : mulFlagBits s.config w = w.bits := by rw [mulFlagBits, hc]
    rwa [hbits] at h ⊢
  case product =>
    have hbits : mulFlagBits s.config w = 2 * w.bits := by rw [mulFlagBits, hc]
    rwa [hbits] at h ⊢

theorem marksKept_mulWritten (w : Width) (m : Nat) (s : State) : marksKept s (mulWritten w m s) := by
  cases w <;> exact ⟨rfl, rfl, rfl, rfl⟩

/-- The writes of an 8-bit MUL: the product of two bytes fits in AX (R181). -/
theorem mulByteResult_mulWritten (s : State) {m : Nat} (hm : m < 2 ^ 8) :
    mulByteResult m s (mulWritten .byte m s) := by
  have hfits : s.reg .al * m < 2 ^ 8 * 2 ^ 8 := Nat.mul_lt_mul'' (s.reg_lt .al) hm
  exact ⟨s.reg_setReg_natCast (r := .ax) hfits, s.setReg_regsKeptBut .ax _, mulFlags_setFlags .byte _ rfl,
    fun _ => rfl⟩

/-- The two halves that a 16-bit MUL writes put the product together (R181). -/
theorem mulWritten_word_product (s : State) {m : Nat} (hm : m < 2 ^ 16) :
    (mulWritten .word m s).reg .dx * 65536 + (mulWritten .word m s).reg .ax = s.reg .ax * m := by
  have hfits : s.reg .ax * m < 2 ^ 16 * 2 ^ 16 := Nat.mul_lt_mul'' (s.reg_lt .ax) hm
  have hhigh : (s.reg .ax * m) >>> 16 = s.reg .ax * m / 65536 := Nat.shiftRight_eq_div_pow _ 16
  have hlow : s.reg .ax * m &&& 0xFFFF = s.reg .ax * m % 65536 := and_maskOf .word _
  have hdx : (mulWritten .word m s).reg .dx = s.reg .ax * m / 65536 := by
    rw [mulWritten, State.setFlags_reg, State.reg_setReg_other _ .ax .dx _ rfl, hhigh]
    exact s.reg_setReg_natCast (r := .dx) (by simp only [RegId.width, Width.bits]; omega)
  have hax : (mulWritten .word m s).reg .ax = s.reg .ax * m % 65536 := by
    rw [mulWritten, State.setFlags_reg, hlow]
    exact State.reg_setReg_natCast _ (r := .ax) (Nat.mod_lt _ (by decide))
  omega

/-- `exec` on MUL of a register, by its meaning (R181). -/
theorem exec_mulR (r : RegId) (s : State) : exec (.mulR r) s = multiply r.width (s.reg r) 2 s := rfl

/-- Settles O48: the register is in range for its width, and the width chooses the product's registers. -/
theorem mulRegisterResult : Obligations.MulRegisterResult := by
  refine fun s r hip => ⟨fun hw => ?byte, fun hw => ?word⟩
  case byte =>
    have hm : s.reg r < 2 ^ 8 := by have := s.reg_lt r; rwa [hw] at this
    rw [exec_mulR, multiply_eq, hw]
    exact completes_complete hip (marksKept_mulWritten .byte _ s) (mulByteResult_mulWritten s hm)
  case word =>
    have hm : s.reg r < 2 ^ 16 := by have := s.reg_lt r; rwa [hw] at this
    rw [exec_mulR, multiply_eq, hw]
    exact completes_complete hip (marksKept_mulWritten .word _ s)
      ⟨mulWritten_word_product s hm,
        s.setReg_setReg_regsKeptBut _ _ (.tail _ (.head _)) (.head _),
        mulFlags_setFlags .word _ rfl, fun _ => rfl⟩

/-- Settles O49: an 8-bit MUL by the byte read. -/
theorem mulMemoryResult : Obligations.MulMemoryResult := by
  have meaning : ByteMeaning .mulM .mulX multiplyMem := ⟨fun _ _ => rfl, fun _ _ _ => rfl⟩
  refine meaning.byteForms fun s m len hip hin => ?_
  rcases multiplyMem_cases m len s with ⟨hout, -⟩ | ⟨-, e⟩
  · omega
  · rw [e]
    exact completes_complete hip (marksKept_mulWritten .byte _ s)
      (mulByteResult_mulWritten s (s.mem.read (effAddr s m)).isLt)

/-! ### DIV without a fault -/

theorem divide_of_fits {w : Width} {v : Nat} {s : State} (len : Nat) (hv : v ≠ 0)
    (hq : dividend w s / v < 2 ^ w.bits) : divide w v len s = complete s (divWritten w v s) len := by
  rw [divide_eq_ite, if_neg hv, if_neg (Nat.not_le.2 hq)]

/-- Two register writes and the draw, as one update of the state. -/
theorem drawDivFlags_setReg_setReg (s : State) (a b : RegId) (u v : Int) :
    ((s.setReg a u).setReg b v).drawDivFlags =
      { s with
        regs := writeReg (writeReg s.regs a u) b v
        flags := assignFlags s.flags (Config.divFlags s.draws)
        draws := s.draws + 1 } := rfl

/-- Of the state, a DIV writes registers and flags and uses up a draw, nothing else (R182). -/
theorem divWritten_regs_flags (w : Width) (v : Nat) (s : State) : ∃ g, divWritten w v s =
    { s with regs := g, flags := assignFlags s.flags (Config.divFlags s.draws), draws := s.draws + 1 } := by
  cases w <;> exact ⟨_, drawDivFlags_setReg_setReg s _ _ _ _⟩

theorem marksKept_divWritten (w : Width) (v : Nat) (s : State) : marksKept s (divWritten w v s) := by
  obtain ⟨g, e⟩ := divWritten_regs_flags w v s
  rw [e]
  exact ⟨rfl, rfl, rfl, rfl⟩

theorem divFlagsDrawn_divWritten (w : Width) (v : Nat) (s : State) : divFlagsDrawn s (divWritten w v s) := by
  obtain ⟨g, e⟩ := divWritten_regs_flags w v s
  rw [e]
  exact ⟨rfl, rfl, rfl, rfl, rfl, rfl, rfl⟩

theorem memKept_divWritten (w : Width) (v : Nat) (s : State) : memKept s (divWritten w v s) := by
  obtain ⟨g, e⟩ := divWritten_regs_flags w v s
  rw [e]
  exact fun _ => rfl

/-- The writes of an 8-bit DIV: quotient and remainder fit in AL and AH (R182). -/
theorem divByteResult_divWritten (s : State) {v : Nat} (hv : v ≠ 0) (hlt : v < 2 ^ 8) (hq : s.reg .ax / v < 2 ^ 8) :
    divByteResult v s (divWritten .byte v s) := by
  have hrem : s.reg .ax % v < 2 ^ 8 := (Nat.mod_lt _ (Nat.pos_of_ne_zero hv)).trans hlt
  refine ⟨?al, ?ah, s.setReg_setReg_regsKeptBut _ _ (.head _) (.tail _ (.head _)),
    divFlagsDrawn_divWritten .byte v s, memKept_divWritten .byte v s⟩
  case al =>
    rw [divWritten, State.drawDivFlags_reg, State.reg_setReg_other _ .ah .al _ rfl]
    exact s.reg_setReg_natCast (r := .al) hq
  case ah =>
    rw [divWritten, State.drawDivFlags_reg]
    exact State.reg_setReg_natCast _ (r := .ah) hrem

/-- An 8-bit DIV where no fault applies completes (R182). -/
theorem completes_divide_byte {s : State} {v len : Nat} (hip : s.ip.toNat + len ≤ 0xFFFF) (hv : v ≠ 0)
    (hlt : v < 2 ^ 8) (hq : s.reg .ax / v ≤ 0xFF) :
    completes len s (divide .byte v len s) (divByteResult v s) := by
  have hfits : dividend .byte s / v < 2 ^ 8 := Nat.lt_succ_of_le hq
  rw [divide_of_fits len hv hfits]
  exact completes_complete hip (marksKept_divWritten .byte v s) (divByteResult_divWritten s hv hlt hfits)

/-- What a successful 16-bit DIV by `v` leaves (R182), as `divByteResult` says it of an 8-bit one. -/
def divWordResult (v : Nat) (s t : State) : Prop :=
  t.reg .ax = dividend .word s / v ∧ t.reg .dx = dividend .word s % v ∧ regsKeptBut [.ax, .dx] s t ∧
    divFlagsDrawn s t ∧ memKept s t

/-- The result says nothing of IP and the output. -/
theorem divWordResult.advance {v : Nat} {s u : State} (h : divWordResult v s u) (ip : Word)
    (out : Option (List Byte)) : divWordResult v s { u with ip := ip, output := out } := h

/-- The writes of a 16-bit DIV: quotient and remainder fit in AX and DX (R182). -/
theorem divWordResult_divWritten (s : State) {v : Nat} (hv : v ≠ 0) (hlt : v < 2 ^ 16)
    (hq : dividend .word s / v < 2 ^ 16) : divWordResult v s (divWritten .word v s) := by
  have hrem : dividend .word s % v < 2 ^ 16 := (Nat.mod_lt _ (Nat.pos_of_ne_zero hv)).trans hlt
  refine ⟨?ax, ?dx, fun q hq => ?others, divFlagsDrawn_divWritten .word v s, memKept_divWritten .word v s⟩
  case ax =>
    rw [divWritten, State.drawDivFlags_reg, State.reg_setReg_other _ .dx .ax _ rfl]
    exact s.reg_setReg_natCast (r := .ax) hq
  case dx =>
    rw [divWritten, State.drawDivFlags_reg]
    exact State.reg_setReg_natCast _ (r := .dx) hrem
  case others =>
    rw [divWritten, State.drawDivFlags_reg]
    exact s.setReg_setReg_regsKeptBut _ _ (.head _) (.tail _ (.head _)) q hq

/-- `exec` on DIV of a register, by its meaning (R182). -/
theorem exec_divR (r : RegId) (s : State) : exec (.divR r) s = divide r.width (s.reg r) 2 s := rfl

/-- Settles O50: the divisor, and so the remainder, is in range for the width. -/
theorem divRegisterResult : Obligations.DivRegisterResult := by
  refine fun s r hip hv => ⟨fun hw hq => ?byte, fun hw hq => ?word⟩
  case byte =>
    have hlt : s.reg r < 2 ^ 8 := by have := s.reg_lt r; rwa [hw] at this
    rw [exec_divR, hw]
    exact completes_divide_byte hip hv hlt hq
  case word =>
    have hlt : s.reg r < 2 ^ 16 := by have := s.reg_lt r; rwa [hw] at this
    have hfits : dividend .word s / s.reg r < 2 ^ 16 := Nat.lt_succ_of_le hq
    rw [exec_divR, hw, divide_of_fits 2 hv hfits]
    exact completes_complete hip (marksKept_divWritten .word _ s)
      ((divWordResult_divWritten s hv hlt hfits).advance _ _)

/-- A DIV by a byte of memory inside the bounds divides by that byte (R185, R186). -/
theorem divideMem_of_inBounds {s : State} {m : MemOperand} (len : Nat) (hin : effAddr s m ≤ 0xFFFF) :
    divideMem m len s = divide .byte (s.mem.read (effAddr s m)).toNat len s := by
  rcases divideMem_cases m len s with ⟨hout, -⟩ | ⟨-, e⟩
  · omega
  · exact e

theorem exec_divM (addr : Word) (s : State) :
    exec (.divM addr) s = divide .byte (s.mem.read addr.toNat).toNat 3 s :=
  divideMem_of_inBounds (m := .direct addr) 3 (effAddr_direct_le s addr)

theorem exec_divX {idx : RegId} {base : Word} {s : State} (hin : base.toNat + s.reg idx ≤ 0xFFFF) :
    exec (.divX idx base) s = divide .byte (s.mem.read (base.toNat + s.reg idx)).toNat 4 s :=
  divideMem_of_inBounds (m := .indexed idx base) 4 hin

/-- Settles O51: an 8-bit DIV by the byte read. -/
theorem divMemoryResult : Obligations.DivMemoryResult := by
  refine fun s => ⟨fun addr hip hv hq => ?direct, fun idx base hip hin hv hq => ?indexed⟩
  case direct =>
    rw [exec_divM]
    exact completes_divide_byte hip hv (BitVec.isLt _) hq
  case indexed =>
    rw [exec_divX hin]
    exact completes_divide_byte hip hv (BitVec.isLt _) hq

/-! ### The divide faults -/

theorem divideFaults_of_zero (w : Width) {v : Nat} (len : Nat) (s : State) (hv : v = 0) :
    divideFaults .divideByZero len s (divide w v len s) := by
  rw [divide_eq_ite, if_pos hv]
  exact raise_divideFaults s _ len rfl

theorem divideFaults_of_overflow {w : Width} {v : Nat} (len : Nat) {s : State} (hv : v ≠ 0)
    (hq : 2 ^ w.bits ≤ dividend w s / v) : divideFaults .divideOverflow len s (divide w v len s) := by
  rw [divide_eq_ite, if_neg hv, if_pos hq]
  exact raise_divideFaults s _ len rfl

/-- Settles O52: every form divides, and the divisor is looked at before the quotient. -/
theorem divideFaultsAreTaken : Obligations.DivideFaultsAreTaken := by
  refine fun s => ⟨fun r hv => ?zeroR, fun r hw hv hq => ?overflowByteR, fun r hw hv hq => ?overflowWordR,
    fun addr hv => ?zeroM, fun addr hv hq => ?overflowM, fun idx base hin hv => ?zeroX,
    fun idx base hin hv hq => ?overflowX⟩
  case zeroR => exact divideFaults_of_zero r.width 2 s hv
  case overflowByteR =>
    rw [exec_divR, hw]
    exact divideFaults_of_overflow 2 hv hq
  case overflowWordR =>
    rw [exec_divR, hw]
    exact divideFaults_of_overflow 2 hv hq
  case zeroM =>
    rw [exec_divM]
    exact divideFaults_of_zero .byte 3 s hv
  case overflowM =>
    rw [exec_divM]
    exact divideFaults_of_overflow 3 hv hq
  case zeroX =>
    rw [exec_divX hin]
    exact divideFaults_of_zero .byte 4 s hv
  case overflowX =>
    rw [exec_divX hin]
    exact divideFaults_of_overflow 4 hv hq

/-- Settles O53: with DX the divisor, DX:AX holds DX times 65536 and more, so the quotient never fits. -/
theorem divByDxAlwaysFaults : Obligations.DivByDxAlwaysFaults := by
  intro s
  rw [exec_divR]
  split
  case isTrue hdx => exact divideFaults_of_zero .word 2 s hdx
  case isFalse hdx =>
    have hq : 2 ^ 16 ≤ (s.reg .dx * 65536 + s.reg .ax) / s.reg .dx := by
      rw [Nat.le_div_iff_mul_le (Nat.pos_of_ne_zero hdx)]
      omega
    exact divideFaults_of_overflow (w := .word) 2 hdx hq

end Sys2Proof.Machine
end

section
/-! PROOFS. Control transfers, NOP, RET, HLT and the string service of INT 21h (spec/43_control.md R200 to R214,
spec/44_system.md R220 to R224). -/

namespace Sys2Proof.Machine

/-! ### Jumps -/

/-- A jump that writes nothing and lands on an address changes IP and the output alone (R202, R203). -/
theorem commit_jumps (s : State) {next : Int} (h0 : 0 ≤ next) (h1 : next ≤ 0xFFFF) :
    ∃ t, commit s s next none = .next t ∧ (t.ip.toNat : Int) = next ∧ t = { s with ip := t.ip, output := none } :=
  ⟨_, commit_of_range h0 h1, ofInt_toNat_of_range h0 h1, rfl⟩

/-- A next IP that is no address raises `IpOutOfBounds` (R74). -/
theorem commit_faults (s t : State) {next : Int} (out : Option (List Byte)) (h : next < 0 ∨ 0xFFFF < next) :
    faultsWith .ipOutOfBounds s (commit s t next out) := by
  rw [commit_of_not_range h]
  exact raise_faultsWith s _ 0 rfl

/-- Settles O54: JMP is one `commit` at its target. -/
theorem jmpResult : Obligations.JmpResult := by
  refine fun s disp => ⟨rfl, fun h0 h1 => ?inside, fun h => ?outside, fun hr hop hend => ?fetch⟩
  case inside => exact commit_jumps s h0 h1
  case outside => exact commit_faults s s none h
  case fetch =>
    have hf : opcodeFormat (s.mem.read s.ip.toNat).toNat = some .J16 := by rw [hop]; rfl
    exact step_of_truncated hr hf (by simp only [formatLength]; omega)

/-- What R204 to R213 say of each conditional jump: its byte, its format and its meaning. -/
def IsCondJump (s : State) (disp op : Byte) (i : Instr) (cond : Bool) : Prop :=
  encode i = [op, disp] ∧ opcodeFormat op.toNat = some .J8 ∧
    ∃ c, condHolds s.flags c = cond ∧ exec i s = jumpIf c disp 2 s

/-- A conditional jump ends at the address that its condition chooses (R203). -/
theorem jumpIf_eq_commit {s : State} {c : Cond} {cond : Bool} {disp : Byte} {next : Int}
    (hc : condHolds s.flags c = cond)
    (hnext : next = if cond then (s.ip.toNat : Int) + 2 + disp.toInt else (s.ip.toNat : Int) + 2) :
    jumpIf c disp 2 s = commit s s next none := by
  rw [hnext, ← hc]
  rfl

/-- Settles O55: each row of the table is a `jumpIf` of its own condition. -/
theorem conditionalJumpResult : Obligations.ConditionalJumpResult := by
  intro s disp op i cond hmem next hnext
  have hjump : IsCondJump s disp op i cond := by
    simp only [List.mem_cons, Prod.mk.injEq, List.not_mem_nil, or_false] at hmem
    obtain ⟨rfl, rfl, rfl⟩ | ⟨rfl, rfl, rfl⟩ | ⟨rfl, rfl, rfl⟩ | ⟨rfl, rfl, rfl⟩ | ⟨rfl, rfl, rfl⟩ | ⟨rfl, rfl, rfl⟩ |
      ⟨rfl, rfl, rfl⟩ | ⟨rfl, rfl, rfl⟩ | ⟨rfl, rfl, rfl⟩ | ⟨rfl, rfl, rfl⟩ := hmem
    · exact ⟨rfl, rfl, .e, rfl, rfl⟩
    · exact ⟨rfl, rfl, .ne, rfl, rfl⟩
    · exact ⟨rfl, rfl, .l, rfl, rfl⟩
    · exact ⟨rfl, rfl, .le, rfl, rfl⟩
    · exact ⟨rfl, rfl, .g, rfl, rfl⟩
    · exact ⟨rfl, rfl, .ge, rfl, rfl⟩
    · exact ⟨rfl, rfl, .b, rfl, rfl⟩
    · exact ⟨rfl, rfl, .be, rfl, rfl⟩
    · exact ⟨rfl, rfl, .a, rfl, rfl⟩
    · exact ⟨rfl, rfl, .ae, rfl, rfl⟩
  obtain ⟨henc, hf, c, hc, hexec⟩ := hjump
  rw [hexec, jumpIf_eq_commit hc hnext]
  refine ⟨henc, commit_jumps s, commit_faults s s none, fun hr hop hend => ?fetch⟩
  case fetch => exact step_of_truncated hr (hop ▸ hf) (by simp only [formatLength]; omega)

/-- LOOP as one `commit`: CX takes the count, and the count chooses the next IP (R214). -/
theorem exec_loop_eq_commit {s : State} {disp : Byte} {c : Nat} {next : Int}
    (hc : c = (s.reg .cx + 0xFFFF) % 0x10000)
    (hnext : next = if c ≠ 0 then (s.ip.toNat : Int) + 2 + disp.toInt else (s.ip.toNat : Int) + 2) :
    exec (.loop disp) s = commit s (s.setReg .cx c) next none := by
  have hcount : (s.regs.cx - 1).toNat = c := by
    have hcx : s.reg .cx = s.regs.cx.toNat := rfl
    rw [BitVec.toNat_sub, hc, hcx]
    show (2 ^ 16 - 1 + s.regs.cx.toNat) % 2 ^ 16 = (s.regs.cx.toNat + 0xFFFF) % 0x10000
    omega
  have hzero : (s.regs.cx - 1 ≠ 0) ↔ c ≠ 0 := by
    rw [← hcount]
    exact not_congr BitVec.toNat_eq
  show jumpRel s (s.setReg .cx (s.regs.cx - 1).toNat) (decide (s.regs.cx - 1 ≠ 0)) 2 disp.toInt = _
  rw [jumpRel, hcount, hnext]
  simp only [decide_eq_true_eq, hzero]
  rfl

/-- Settles O56: in range CX and IP are written; out of range neither is. -/
theorem loopResult : Obligations.LoopResult := by
  intro s disp c next hc hnext
  rw [exec_loop_eq_commit hc hnext]
  refine ⟨rfl, fun h0 h1 => ?inside, commit_faults s _ none⟩
  case inside =>
    have hlt : c < 2 ^ 16 := by omega
    exact ⟨_, commit_of_range h0 h1, ofInt_toNat_of_range h0 h1, s.reg_setReg_natCast (r := .cx) hlt, rfl⟩

/-! ### NOP, RET and HLT -/

/-- One byte on from an address below 0xFFFF is an address. -/
theorem ip_succ_le {s : State} (h : s.ip.toNat ≠ 0xFFFF) : s.ip.toNat + 1 ≤ 0xFFFF := by
  have := s.ip.isLt
  omega

/-- At the last address an instruction that ends in `complete` raises `IpOutOfBounds` (R74). -/
theorem complete_faults {s : State} (t : State) {len : Nat} (h : 0xFFFF < s.ip.toNat + len) :
    faultsWith .ipOutOfBounds s (complete s t len) := by
  rw [complete_of_not_range h]
  exact raise_faultsWith s _ 0 rfl

/-- Settles O36: both instructions only complete their one byte. -/
theorem nopAndRetHaveNoEffect : Obligations.NopAndRetHaveNoEffect := by
  refine ⟨rfl, rfl, fun _ => rfl, fun s i hi => ?_⟩
  have hexec : exec i s = complete s s 1 := by obtain rfl | rfl := hi <;> rfl
  rw [hexec]
  exact ⟨fun hip => complete_of_range (ip_succ_le hip), fun hip => complete_faults s (by omega)⟩

/-- Settles O57: HLT completes with the halted mark set, and `step` asks that mark first. -/
theorem hltHalts : Obligations.HltHalts := by
  refine ⟨rfl, fun s => ?_⟩
  have hexec : exec .hlt s = complete s { s with halted := true } 1 := rfl
  rw [hexec]
  refine ⟨fun hip => ⟨complete_of_range (ip_succ_le hip), ?stopped⟩, fun hip => complete_faults _ (by omega)⟩
  case stopped =>
    obtain ⟨halted, -⟩ := terminalStatesHaveNoStep
      { s with ip := BitVec.ofNat 16 (s.ip.toNat + 1), halted := true, output := none }
    exact halted rfl

/-! ### The string of INT 21h -/

/-- AH = 0x09 chooses the service that emits a string (R224). -/
theorem serviceCall_of_ah_nine {s : State} (len : Nat) (h : s.reg .ah = 0x09) :
    serviceCall len s = emitString len s := by
  rw [serviceCall, if_neg (by omega), if_pos h]

/-- Settles O59: `dollarString` finds the first 0x24 from DX on, or none up to 0xFFFF. -/
theorem intEmitsTheString : Obligations.IntEmitsTheString := by
  intro s hah
  rw [exec_int, execInt_service, serviceCall_of_ah_nine 2 hah, emitString]
  refine ⟨fun n hip hn hdollar hbefore => ?found, fun hno => ?unterminated⟩
  case found =>
    rw [dollarString_found (by omega) hdollar hbefore]
    exact commit_advance hip
  case unterminated =>
    have hnone : dollarString s.mem (s.reg .dx) (0x10000 - s.reg .dx) = none :=
      dollarString_none fun k hk => hno (s.reg .dx + k) (Nat.le_add_right _ _) (by omega)
    rw [hnone]
    exact raise_faultsWith s _ 2 rfl

end Sys2Proof.Machine
end
